-- ==== Sys2Proof/Word.lean ====
section
/-! DEFINITION. The words of the hardware: bytes, 16-bit words and the 4-bit and 12-bit fields
of an instruction (spec/30_encoding.md R46, R47). -/

namespace Sys2Proof

/-- A general register, a memory cell, a timer, the immediate `nn` (R3 `XLEN`, R10, R14, R17). -/
abbrev Byte := BitVec 8

/-- An instruction word, `I`, `PC`, a stack slot (R12, R13, R15, R45). -/
abbrev Word := BitVec 16

/-- A register index: the 4-bit fields `x` and `y`, and the index that `WAIT` holds (R19, R46). -/
abbrev RegIdx := BitVec 4

/-- The sprite height `n` of `Dxyn` (R46). -/
abbrev Nibble := BitVec 4

/-- The 12-bit address field `nnn` (R46). -/
abbrev Addr12 := BitVec 12

/-- A key number on the 4-bit key port (R67). -/
abbrev Key := BitVec 4

/-- The index of `VF`, the register that is also the flag (R11). -/
abbrev vfIdx : RegIdx := 15

end Sys2Proof
end

