-- ==== Sys2Proof/Config.lean ====
section
/-! DEFINITION. What is fixed for the machine (spec/00_scope.md R3) and the one free value of the
spec, the entropy stream (spec/42_alu.md R98, decision D17). The font, a parameter of R3 too, is
`Machine.font` in Machine/Ops.lean. -/

namespace Sys2Proof

/-- `MEM_SIZE`: bytes of memory (R3, R14). -/
abbrev Config.memSize : Nat := 4096

/-- `STACK_DEPTH`: slots of the call stack (R3, R15). -/
abbrev Config.stackDepth : Nat := 16

/-- `FB_W`: pixels in a row of the framebuffer (R3, R16). -/
abbrev Config.fbWidth : Nat := 64

/-- `FB_H`: rows of the framebuffer (R3, R16). -/
abbrev Config.fbHeight : Nat := 32

/-- `PROG_BASE`: where an image is loaded and execution starts (R3, R21, R151). -/
abbrev Config.progBase : Nat := 512

/-- `PROG_MAX`: the longest image in bytes (R3, R137). -/
abbrev Config.progMax : Nat := 3584

/-- `ENTROPY`: the byte the entropy port gives at sample number `n`. It has no value here, so whatever
is proved holds for every stream (R98: "any of the 256 values, chosen afresh at each executed `Cxnn`,
under no law"). DESIGN CHOICE (notes/assumptions/5.md): a stream indexed by a counter in State. -/
opaque Config.entropy : Nat → Byte

end Sys2Proof
end

