-- ==== Sys2Proof/Syntax.lean ====
section
/-! DEFINITION. The instructions: one constructor per row of spec/opcode_table.json, and the shape of
such a row (spec/30_encoding.md R48, R50). -/

namespace Sys2Proof

/-- The 34 instructions of R50, in the table's order. Operand types have exactly the width of their
field (R46, R47). `8xy6` and `8xyE` keep the `y` field of their word, although no meaning reads it
(R52), so that no bit of a word is lost by decoding. -/
inductive Instr where
  /-- `00E0` CLS -/
  | cls
  /-- `00EE` RET -/
  | ret
  /-- `1nnn` JP -/
  | jp (nnn : Addr12)
  /-- `2nnn` CALL -/
  | call (nnn : Addr12)
  /-- `3xnn` SE_I -/
  | seI (x : RegIdx) (nn : Byte)
  /-- `4xnn` SNE_I -/
  | sneI (x : RegIdx) (nn : Byte)
  /-- `5xy0` SE_R -/
  | seR (x y : RegIdx)
  /-- `6xnn` LD_I -/
  | ldI (x : RegIdx) (nn : Byte)
  /-- `7xnn` ADD_I -/
  | addI (x : RegIdx) (nn : Byte)
  /-- `8xy0` LD_R -/
  | ldR (x y : RegIdx)
  /-- `8xy1` OR -/
  | or (x y : RegIdx)
  /-- `8xy2` AND -/
  | and (x y : RegIdx)
  /-- `8xy3` XOR -/
  | xor (x y : RegIdx)
  /-- `8xy4` ADD_R -/
  | addR (x y : RegIdx)
  /-- `8xy5` SUB -/
  | sub (x y : RegIdx)
  /-- `8xy6` SHR, `y` ignored -/
  | shr (x y : RegIdx)
  /-- `8xy7` SUBN -/
  | subn (x y : RegIdx)
  /-- `8xyE` SHL, `y` ignored -/
  | shl (x y : RegIdx)
  /-- `9xy0` SNE_R -/
  | sneR (x y : RegIdx)
  /-- `Annn` LD_IDX -/
  | ldIdx (nnn : Addr12)
  /-- `Bnnn` JP_V0 -/
  | jpV0 (nnn : Addr12)
  /-- `Cxnn` RND -/
  | rnd (x : RegIdx) (nn : Byte)
  /-- `Dxyn` DRW -/
  | drw (x y : RegIdx) (n : Nibble)
  /-- `Ex9E` SKP -/
  | skp (x : RegIdx)
  /-- `ExA1` SKNP -/
  | sknp (x : RegIdx)
  /-- `Fx07` LD_DT -/
  | ldDt (x : RegIdx)
  /-- `Fx0A` LD_KEY -/
  | ldKey (x : RegIdx)
  /-- `Fx15` ST_DT -/
  | stDt (x : RegIdx)
  /-- `Fx18` ST_ST -/
  | stSt (x : RegIdx)
  /-- `Fx1E` ADD_IDX -/
  | addIdx (x : RegIdx)
  /-- `Fx29` LD_FONT -/
  | ldFont (x : RegIdx)
  /-- `Fx33` ST_BCD -/
  | stBcd (x : RegIdx)
  /-- `Fx55` ST_REGS -/
  | stRegs (x : RegIdx)
  /-- `Fx65` LD_REGS -/
  | ldRegs (x : RegIdx)
  deriving DecidableEq, Repr

/-- A row of R50: the mnemonic, the mask and the match (`pat`) of its pattern. -/
structure OpRow where
  mnemonic : String
  mask : Word
  pat : Word
  deriving DecidableEq, Repr

/-- "`(instr & mask) == match`" (R49). -/
def OpRow.covers (r : OpRow) (w : Word) : Bool := w &&& r.mask == r.pat

end Sys2Proof
end

