-- ==== Sys2Proof/WellFormed.lean ====
section
/-! DEFINITION. Well-formedness. An instruction's operands have exactly the width of their fields
(spec/30_encoding.md R46, R47), so no term of `Instr` is ill-formed; what can be ill-formed is a row
of an opcode table, a whole table, and a program image. DESIGN CHOICE (notes/assumptions/24.md). -/

namespace Sys2Proof

/-- Every instruction is well-formed: the bound of each operand is its type's (R46), no register index
is reserved (R10), every immediate is accepted (R47), and `y` of `8xy6` and `8xyE` may be anything
(R52). One arm a constructor, so that a new instruction cannot slip past. -/
def Instr.wellFormed : Instr → Bool
  | .cls | .ret => true
  | .jp _ | .call _ | .ldIdx _ | .jpV0 _ => true
  | .seI _ _ | .sneI _ _ | .ldI _ _ | .addI _ _ | .rnd _ _ => true
  | .seR _ _ | .sneR _ _ | .ldR _ _ | .or _ _ | .and _ _ | .xor _ _ => true
  | .addR _ _ | .sub _ _ | .shr _ _ | .subn _ _ | .shl _ _ => true
  | .drw _ _ _ => true
  | .skp _ | .sknp _ | .ldDt _ | .ldKey _ | .stDt _ | .stSt _ => true
  | .addIdx _ | .ldFont _ | .stBcd _ | .stRegs _ | .ldRegs _ => true

/-- A row's match has no bit outside its mask (R49: otherwise no word could meet it). -/
def OpRow.wellFormed (r : OpRow) : Bool := r.pat &&& r.mask == r.pat

/-- No word meets both rows: they differ in a bit that both decode (R49). -/
def OpRow.disjoint (r q : OpRow) : Bool := r.pat &&& (r.mask &&& q.mask) != q.pat &&& (r.mask &&& q.mask)

/-- "The 34 mask-and-match pairs are pairwise disjoint" (R49), and each row can be met. -/
def tableWellFormed : List OpRow → Bool
  | [] => true
  | r :: rs => r.wellFormed && rs.all r.disjoint && tableWellFormed rs

/-- An image that `RESET` accepts: at most 3584 bytes (R137, R151). -/
def imageWellFormed (image : List Byte) : Bool := decide (image.length ≤ Config.progMax)

end Sys2Proof
end

