-- ==== Sys2Proof/Decode.lean ====
section
/-! DEFINITION. The decoder, total on any bytes, and the encoder, both written from
spec/30_encoding.md (R45 to R55) and spec/20_memory.md R33. -/

namespace Sys2Proof

/-- The field `opcode = instr[15:12]` (R46). -/
def fieldOp (w : Word) : BitVec 4 := w.extractLsb' 12 4

/-- The field `x = instr[11:8]` (R46). -/
def fieldX (w : Word) : RegIdx := w.extractLsb' 8 4

/-- The field `y = instr[7:4]` (R46). -/
def fieldY (w : Word) : RegIdx := w.extractLsb' 4 4

/-- The field `n = instr[3:0]` (R46). -/
def fieldN (w : Word) : Nibble := w.extractLsb' 0 4

/-- The field `nn = instr[7:0]` (R46). -/
def fieldNN (w : Word) : Byte := w.extractLsb' 0 8

/-- The field `nnn = instr[11:0]` (R46). -/
def fieldNNN (w : Word) : Addr12 := w.extractLsb' 0 12

/-- Opcode 0: "the whole word must be `00E0` or `00EE`" (R49, C1: no `0nnn`). -/
def decodeGroup0 (w : Word) : Option Instr :=
  if w = 0x00E0#16 then some .cls
  else if w = 0x00EE#16 then some .ret
  else none

/-- Opcode 8: the ALU group, "the field `n` must be one of 0 to 7 or E" (R49). -/
def decodeGroup8 (w : Word) : Option Instr :=
  if fieldN w = 0x0#4 then some (.ldR (fieldX w) (fieldY w))
  else if fieldN w = 0x1#4 then some (.or (fieldX w) (fieldY w))
  else if fieldN w = 0x2#4 then some (.and (fieldX w) (fieldY w))
  else if fieldN w = 0x3#4 then some (.xor (fieldX w) (fieldY w))
  else if fieldN w = 0x4#4 then some (.addR (fieldX w) (fieldY w))
  else if fieldN w = 0x5#4 then some (.sub (fieldX w) (fieldY w))
  else if fieldN w = 0x6#4 then some (.shr (fieldX w) (fieldY w))
  else if fieldN w = 0x7#4 then some (.subn (fieldX w) (fieldY w))
  else if fieldN w = 0xE#4 then some (.shl (fieldX w) (fieldY w))
  else none

/-- Opcode E: the key skips; `Ex93` is none of them (R49, R54). -/
def decodeGroupE (w : Word) : Option Instr :=
  if fieldNN w = 0x9E#8 then some (.skp (fieldX w))
  else if fieldNN w = 0xA1#8 then some (.sknp (fieldX w))
  else none

/-- Opcode F: timers, key wait, index and memory, by the function code `nn` (R49). -/
def decodeGroupF (w : Word) : Option Instr :=
  if fieldNN w = 0x07#8 then some (.ldDt (fieldX w))
  else if fieldNN w = 0x0A#8 then some (.ldKey (fieldX w))
  else if fieldNN w = 0x15#8 then some (.stDt (fieldX w))
  else if fieldNN w = 0x18#8 then some (.stSt (fieldX w))
  else if fieldNN w = 0x1E#8 then some (.addIdx (fieldX w))
  else if fieldNN w = 0x29#8 then some (.ldFont (fieldX w))
  else if fieldNN w = 0x33#8 then some (.stBcd (fieldX w))
  else if fieldNN w = 0x55#8 then some (.stRegs (fieldX w))
  else if fieldNN w = 0x65#8 then some (.ldRegs (fieldX w))
  else none

/-- The instruction of a word, or none for an unknown opcode: the steps of R49. -/
def decodeWord (w : Word) : Option Instr :=
  if fieldOp w = 0x0#4 then decodeGroup0 w
  else if fieldOp w = 0x1#4 then some (.jp (fieldNNN w))
  else if fieldOp w = 0x2#4 then some (.call (fieldNNN w))
  else if fieldOp w = 0x3#4 then some (.seI (fieldX w) (fieldNN w))
  else if fieldOp w = 0x4#4 then some (.sneI (fieldX w) (fieldNN w))
  else if fieldOp w = 0x5#4 then
    if fieldN w = 0x0#4 then some (.seR (fieldX w) (fieldY w)) else none
  else if fieldOp w = 0x6#4 then some (.ldI (fieldX w) (fieldNN w))
  else if fieldOp w = 0x7#4 then some (.addI (fieldX w) (fieldNN w))
  else if fieldOp w = 0x8#4 then decodeGroup8 w
  else if fieldOp w = 0x9#4 then
    if fieldN w = 0x0#4 then some (.sneR (fieldX w) (fieldY w)) else none
  else if fieldOp w = 0xA#4 then some (.ldIdx (fieldNNN w))
  else if fieldOp w = 0xB#4 then some (.jpV0 (fieldNNN w))
  else if fieldOp w = 0xC#4 then some (.rnd (fieldX w) (fieldNN w))
  else if fieldOp w = 0xD#4 then some (.drw (fieldX w) (fieldY w) (fieldN w))
  else if fieldOp w = 0xE#4 then decodeGroupE w
  else decodeGroupF w

/-- "`instr[15:8] = MEM[PC]` and `instr[7:0] = MEM[PC+1]`" (R33). -/
def wordOfBytes (hi lo : Byte) : Word := hi ++ lo

/-- Why a list of bytes is no instruction. -/
inductive DecodeError where
  /-- Fewer than the two bytes that every instruction has (R45). -/
  | truncated
  /-- The word meets no row of R50 (R51). -/
  | unknownOpcode (w : Word)
  deriving DecidableEq, Repr

/-- Decoding a list of bytes: the first instruction and the bytes after it, or the reason there is
none. Total, and no unknown word falls through to a neighbour (R51, R53). -/
def decode : List Byte → Except DecodeError (Instr × List Byte)
  | hi :: lo :: rest =>
    match decodeWord (wordOfBytes hi lo) with
    | some i => .ok (i, rest)
    | none => .error (.unknownOpcode (wordOfBytes hi lo))
  | _ => .error .truncated

/-- Assembling the format ADDR: opcode, `nnn` (R48). -/
def formAddr (op : BitVec 4) (nnn : Addr12) : Word := op ++ nnn

/-- Assembling the format REG_IMM, and REG_FN with the function code in `nn` (R48). -/
def formRegImm (op : BitVec 4) (x : RegIdx) (nn : Byte) : Word := op ++ x ++ nn

/-- Assembling the format REG_REG with a function code, and REG_REG_N with the height (R48). -/
def formRegReg (op : BitVec 4) (x y : RegIdx) (n : Nibble) : Word := op ++ x ++ y ++ n

/-- The word of an instruction, from the patterns of R50. -/
def encodeWord : Instr → Word
  | .cls => 0x00E0#16
  | .ret => 0x00EE#16
  | .jp nnn => formAddr 0x1 nnn
  | .call nnn => formAddr 0x2 nnn
  | .seI x nn => formRegImm 0x3 x nn
  | .sneI x nn => formRegImm 0x4 x nn
  | .seR x y => formRegReg 0x5 x y 0x0
  | .ldI x nn => formRegImm 0x6 x nn
  | .addI x nn => formRegImm 0x7 x nn
  | .ldR x y => formRegReg 0x8 x y 0x0
  | .or x y => formRegReg 0x8 x y 0x1
  | .and x y => formRegReg 0x8 x y 0x2
  | .xor x y => formRegReg 0x8 x y 0x3
  | .addR x y => formRegReg 0x8 x y 0x4
  | .sub x y => formRegReg 0x8 x y 0x5
  | .shr x y => formRegReg 0x8 x y 0x6
  | .subn x y => formRegReg 0x8 x y 0x7
  | .shl x y => formRegReg 0x8 x y 0xE
  | .sneR x y => formRegReg 0x9 x y 0x0
  | .ldIdx nnn => formAddr 0xA nnn
  | .jpV0 nnn => formAddr 0xB nnn
  | .rnd x nn => formRegImm 0xC x nn
  | .drw x y n => formRegReg 0xD x y n
  | .skp x => formRegImm 0xE x 0x9E
  | .sknp x => formRegImm 0xE x 0xA1
  | .ldDt x => formRegImm 0xF x 0x07
  | .ldKey x => formRegImm 0xF x 0x0A
  | .stDt x => formRegImm 0xF x 0x15
  | .stSt x => formRegImm 0xF x 0x18
  | .addIdx x => formRegImm 0xF x 0x1E
  | .ldFont x => formRegImm 0xF x 0x29
  | .stBcd x => formRegImm 0xF x 0x33
  | .stRegs x => formRegImm 0xF x 0x55
  | .ldRegs x => formRegImm 0xF x 0x65

/-- The byte at the lower address: `instr[15:8]` (R33). -/
def highByte (w : Word) : Byte := w.extractLsb' 8 8

/-- The byte at the higher address: `instr[7:0]` (R33). -/
def lowByte (w : Word) : Byte := w.extractLsb' 0 8

/-- The two bytes of an instruction as memory holds them (R33, R45). -/
def encode (i : Instr) : List Byte := [highByte (encodeWord i), lowByte (encodeWord i)]

/-- The row of R50 of an instruction: mnemonic, mask, match. -/
def Instr.row : Instr → OpRow
  | .cls => ⟨"CLS", 0xFFFF, 0x00E0⟩
  | .ret => ⟨"RET", 0xFFFF, 0x00EE⟩
  | .jp _ => ⟨"JP", 0xF000, 0x1000⟩
  | .call _ => ⟨"CALL", 0xF000, 0x2000⟩
  | .seI _ _ => ⟨"SE_I", 0xF000, 0x3000⟩
  | .sneI _ _ => ⟨"SNE_I", 0xF000, 0x4000⟩
  | .seR _ _ => ⟨"SE_R", 0xF00F, 0x5000⟩
  | .ldI _ _ => ⟨"LD_I", 0xF000, 0x6000⟩
  | .addI _ _ => ⟨"ADD_I", 0xF000, 0x7000⟩
  | .ldR _ _ => ⟨"LD_R", 0xF00F, 0x8000⟩
  | .or _ _ => ⟨"OR", 0xF00F, 0x8001⟩
  | .and _ _ => ⟨"AND", 0xF00F, 0x8002⟩
  | .xor _ _ => ⟨"XOR", 0xF00F, 0x8003⟩
  | .addR _ _ => ⟨"ADD_R", 0xF00F, 0x8004⟩
  | .sub _ _ => ⟨"SUB", 0xF00F, 0x8005⟩
  | .shr _ _ => ⟨"SHR", 0xF00F, 0x8006⟩
  | .subn _ _ => ⟨"SUBN", 0xF00F, 0x8007⟩
  | .shl _ _ => ⟨"SHL", 0xF00F, 0x800E⟩
  | .sneR _ _ => ⟨"SNE_R", 0xF00F, 0x9000⟩
  | .ldIdx _ => ⟨"LD_IDX", 0xF000, 0xA000⟩
  | .jpV0 _ => ⟨"JP_V0", 0xF000, 0xB000⟩
  | .rnd _ _ => ⟨"RND", 0xF000, 0xC000⟩
  | .drw _ _ _ => ⟨"DRW", 0xF000, 0xD000⟩
  | .skp _ => ⟨"SKP", 0xF0FF, 0xE09E⟩
  | .sknp _ => ⟨"SKNP", 0xF0FF, 0xE0A1⟩
  | .ldDt _ => ⟨"LD_DT", 0xF0FF, 0xF007⟩
  | .ldKey _ => ⟨"LD_KEY", 0xF0FF, 0xF00A⟩
  | .stDt _ => ⟨"ST_DT", 0xF0FF, 0xF015⟩
  | .stSt _ => ⟨"ST_ST", 0xF0FF, 0xF018⟩
  | .addIdx _ => ⟨"ADD_IDX", 0xF0FF, 0xF01E⟩
  | .ldFont _ => ⟨"LD_FONT", 0xF0FF, 0xF029⟩
  | .stBcd _ => ⟨"ST_BCD", 0xF0FF, 0xF033⟩
  | .stRegs _ => ⟨"ST_REGS", 0xF0FF, 0xF055⟩
  | .ldRegs _ => ⟨"LD_REGS", 0xF0FF, 0xF065⟩

/-- One instruction per row, its operands 0: the rows of R50 in the table's order. -/
def sampleInstrs : List Instr :=
  [.cls, .ret, .jp 0, .call 0, .seI 0 0, .sneI 0 0, .seR 0 0, .ldI 0 0, .addI 0 0] ++
  [.ldR 0 0, .or 0 0, .and 0 0, .xor 0 0, .addR 0 0, .sub 0 0, .shr 0 0, .subn 0 0, .shl 0 0] ++
  [.sneR 0 0, .ldIdx 0, .jpV0 0, .rnd 0 0, .drw 0 0 0, .skp 0, .sknp 0] ++
  [.ldDt 0, .ldKey 0, .stDt 0, .stSt 0, .addIdx 0, .ldFont 0, .stBcd 0, .stRegs 0, .ldRegs 0]

/-- The opcode map of R50. -/
def opTable : List OpRow := sampleInstrs.map Instr.row

/-- What the decoder reads from an instruction whose bits are `w`, numbered as spec/opcode_table.json
numbers them: the one 16-bit word, laid out high byte first (R33) and given to `decode`. -/
def decodeTableWord (nbits w : Nat) : Option Instr :=
  let word : Word := BitVec.ofNat 16 (w % 2 ^ nbits)
  match decode [highByte word, lowByte word] with
  | .ok (i, _) => some i
  | .error _ => none

end Sys2Proof
end

