-- ==== Sys2Proof/Machine/State.lean ====
section
/-! DEFINITION. The state of the machine as plain data: the ten items of spec/10_state.md R10 to R19,
and two fields of the model's own (the position in the entropy stream and the host's remaining
events). The faults of spec/60_exceptions.md R130, and the state right after reset (R21). -/

namespace Sys2Proof.Machine

/-- The events that drive the block, each atomic, one at a time (R2, R71). The key port is 4 bits wide,
so a key number above 15 cannot be presented (R67). -/
inductive Event where
  /-- `RESET(image)` (R150) -/
  | reset (image : List Byte)
  /-- `STEP` (R61, R62) -/
  | step
  /-- `TICK` (R64) -/
  | tick
  /-- `KEY_DOWN(k)` (R65) -/
  | keyDown (k : Key)
  /-- `KEY_UP(k)` (R66) -/
  | keyUp (k : Key)
  deriving DecidableEq, Repr

/-- Memory as the list of the bytes that differ from what memory holds after `RESET` of an empty image,
addresses strictly rising (`Memory.wf` in Machine/Ops.lean; notes/assumptions/22.md). -/
abbrev Memory := List Host.Cell

/-- The framebuffer: 32 rows of 64 pixels, row 0 at the top, column 0 at the left; `true` is 1, set, lit
(R16, D5: notes/assumptions/4.md). -/
abbrev FrameBuffer := Vector (Vector Bool 64) 32

/-- The whole state. The names are the spec's, in lower case. -/
structure State where
  /-- `V[0]` .. `V[15]`; `V[15]` is `VF` (R10, R11) -/
  v : Vector Byte 16
  /-- the index register `I`, 16 bits, never masked to 12 (R12) -/
  i : Word
  /-- the program counter, 16 bits, any parity (R13, R35) -/
  pc : Word
  /-- memory, 4096 bytes (R14) -/
  mem : Memory
  /-- the 16 slots of the call stack (R15) -/
  stack : Vector Word 16
  /-- the number of occupied slots, 0 to 16 (R15) -/
  sp : Fin 17
  /-- the framebuffer (R16) -/
  fb : FrameBuffer
  /-- the delay timer (R17) -/
  dt : Byte
  /-- the sound timer (R17) -/
  st : Byte
  /-- the key latch: flag `k` is set while key `k` is down (R18) -/
  keys : Vector Bool 16
  /-- none is Running, `some x` is WaitingForKey(x) (R19) -/
  wait : Option RegIdx
  /-- the model's own: how many entropy bytes have been sampled (R98; notes/assumptions/5.md) -/
  draws : Nat
  /-- the model's own: the events the host sends next, first first; when there is none it sends `STEP`
  (R72; notes/assumptions/6.md) -/
  schedule : List Event
  deriving DecidableEq, Repr

/-- The faults of R130, with the information of its fifth column. Each ends the event with the whole
state as it was (R63, R135), which is safe: the spec itself names the fault. The block has no other. -/
inductive Fault where
  /-- `RESET` of an image longer than 3584 bytes (R137); raised by `loadImage`. Safe: the spec's own. -/
  | programTooLarge (len : Nat)
  /-- a fetched word that meets no row of R50 (R131); raised by `stepEvent`. Safe: the spec's own. -/
  | unknownOpcode (word pc : Word)
  /-- `2nnn` with 16 occupied slots (R132); raised by `execCall`; `pc` is the instruction's address.
  Safe: the spec's own. -/
  | stackOverflow (pc : Word)
  /-- `00EE` with no occupied slot (R133); raised by `execRet`; `pc` is the instruction's address.
  Safe: the spec's own. -/
  | stackUnderflow (pc : Word)
  /-- an access that is not wholly inside addresses 0 to 4095 (R134); raised by the fetch, `execDrw`,
  `execStBcd`, `execStRegs` and `execLdRegs`. Safe: the spec's own. -/
  | outOfBoundsAccess (base len : Nat)
  /-- `Ex9E` or `ExA1` with `V[x] > 15` (R136, D8: notes/assumptions/10.md); raised by `execSkp` and
  `execSknp`. Safe: the spec's own. -/
  | keyIndexOutOfRange (k : Byte)
  deriving DecidableEq, Repr

/-- What the host has: a machine, or none, before the first successful `RESET` and after a failed one
(R150, U9, D19). The host's own side, where it is in its entropy stream and which events it sends next, is
no state of the block (R20, R72), so it is there with or without a machine. That a failed `RESET` and the
one after it neither rewind the stream nor drop the events is the model's choice, DESIGN CHOICE
(notes/assumptions/19.md). -/
inductive Holding where
  /-- a machine; its `draws` and `schedule` are the host's side -/
  | machine (s : State)
  /-- no machine, and the host's side -/
  | absent (draws : Nat) (schedule : List Event)
  deriving DecidableEq, Repr

/-- Why the model gives no transition. -/
inductive Refusal where
  /-- an instruction whose meaning is not modelled: raised by no arm of `exec`. Safe. -/
  | notModelled (mnemonic : String)
  /-- an event other than `RESET` presented when there is no machine, before the first successful
  `RESET` or after a failed one (R150, U9, D19); raised by `deliver`, never by `step`. Safe. -/
  | noMachine
  deriving DecidableEq, Repr

/-- The state right after `RESET` of an empty image (R21, R150): `PC` = 512, Running, memory as the map
of R32 has it, everything else 0 (D4: notes/assumptions/1.md). `draws` and `schedule` are the model's
own (notes/assumptions/5.md, 6.md). -/
def State.reset : State where
  v := Vector.replicate 16 0
  i := 0
  pc := 512
  mem := []
  stack := Vector.replicate 16 0
  sp := 0
  fb := Vector.replicate 32 (Vector.replicate 64 false)
  dt := 0
  st := 0
  keys := Vector.replicate 16 false
  wait := none
  draws := 0
  schedule := []

end Sys2Proof.Machine
end

