-- ==== Sys2Proof/Machine/Ops.lean ====
section
/-! DEFINITION. The operations over the state that every meaning and every event goes through: the
register file, memory and its bounds check (spec/20_memory.md), the call stack, the framebuffer's
pixels, the key latch, the entropy port, the fetch, raising a fault (spec/60_exceptions.md R135). -/

namespace Sys2Proof.Machine

/-- What a meaning and an event answer. -/
abbrev Result := Host.Outcome State Fault Refusal

/-! ## Registers -/

/-- `V[x]` (R10). -/
def State.reg (s : State) (x : RegIdx) : Byte := s.v[x.toNat]

/-- `V[x] <- b` (R10). -/
def State.setReg (s : State) (x : RegIdx) (b : Byte) : State := { s with v := s.v.set x.toNat b }

/-- `V[0] <- bytes[0], V[1] <- bytes[1], ...`, from register `k` on; a list longer than the file is cut. -/
def State.setRegsFrom (s : State) (k : Nat) : List Byte → State
  | [] => s
  | b :: bs => if h : k < 16 then State.setRegsFrom { s with v := s.v.set k b } (k + 1) bs else s

/-- `VF <- 1` or `0`: a flag "always receives 0 or 1" (R11). -/
def State.setVF (s : State) (flag : Bool) : State := s.setReg vfIdx (if flag then 1 else 0)

/-- `I <- w` (R12). -/
def State.setI (s : State) (w : Word) : State := { s with i := w }

/-- `pc <- target` (R13); not checked here but when it is fetched from (R84). -/
def State.setPc (s : State) (w : Word) : State := { s with pc := w }

/-- The advance, and a skip: `PC <- PC + 2` (R62, R79). -/
def State.advance (s : State) : State := s.setPc (s.pc + 2)

/-- `DT <- b` (R17). -/
def State.setDt (s : State) (b : Byte) : State := { s with dt := b }

/-- `ST <- b` (R17). -/
def State.setSt (s : State) (b : Byte) : State := { s with st := b }

/-- `WAIT <- w` (R19). -/
def State.setWait (s : State) (w : Option RegIdx) : State := { s with wait := w }

/-! ## Faults -/

/-- `raise F`: "ends the `STEP` at once with result `F`. The state after is the state before, bit for
bit" (R135). A fault outcome carries no state: the host still has the one before (`deliver`). Nothing
is saved, no mode changes, control goes nowhere (R139), and there is no return (R140). -/
def raise (f : Fault) : Result := .fault f

/-- The numbers of R130 (D21: notes/assumptions/17.md); 0 is "none". -/
def Fault.code : Fault → Nat
  | .programTooLarge _ => 1
  | .unknownOpcode _ _ => 2
  | .stackOverflow _ => 3
  | .stackUnderflow _ => 4
  | .outOfBoundsAccess _ _ => 5
  | .keyIndexOutOfRange _ => 6

/-! ## Memory -/

/-- `FONT`: glyph `d` at `5 * d`, top row first (R152, D7: notes/assumptions/2.md). -/
def font : List Byte :=
  [0xF0, 0x90, 0x90, 0x90, 0xF0] ++ [0x20, 0x60, 0x20, 0x20, 0x70] ++
  [0xF0, 0x10, 0xF0, 0x80, 0xF0] ++ [0xF0, 0x10, 0xF0, 0x10, 0xF0] ++
  [0x90, 0x90, 0xF0, 0x10, 0x10] ++ [0xF0, 0x80, 0xF0, 0x10, 0xF0] ++
  [0xF0, 0x80, 0xF0, 0x90, 0xF0] ++ [0xF0, 0x10, 0x20, 0x40, 0x40] ++
  [0xF0, 0x90, 0xF0, 0x90, 0xF0] ++ [0xF0, 0x90, 0xF0, 0x10, 0xF0] ++
  [0xF0, 0x90, 0xF0, 0x90, 0x90] ++ [0xE0, 0x90, 0xE0, 0x90, 0xE0] ++
  [0xF0, 0x80, 0x80, 0x80, 0xF0] ++ [0xE0, 0x90, 0x90, 0x90, 0xE0] ++
  [0xF0, 0x80, 0xF0, 0x80, 0xF0] ++ [0xF0, 0x80, 0xF0, 0x80, 0x80]

/-- What an address that no cell lists holds: the contents after `RESET` of an empty image, that is the
font in 0 to 79 and 0 everywhere else (R21, R32). -/
def Memory.initial (a : Nat) : Byte := font.getD a 0

/-- `MEM[a]` (R14, R40). -/
def Memory.read : Memory → Nat → Byte
  | [], a => Memory.initial a
  | (a', b) :: m, a => if a = a' then b else Memory.read m a

/-- `MEM[a] <- b`, keeping the canonical form: a cell stands where its address belongs, and writing the
initial byte back removes the cell. -/
def Memory.write : Memory → Nat → Byte → Memory
  | [], a, b => if b = Memory.initial a then [] else [(a, b)]
  | (a', b') :: m, a, b =>
    if a < a' then (if b = Memory.initial a then (a', b') :: m else (a, b) :: (a', b') :: m)
    else if a = a' then (if b = Memory.initial a then m else (a, b) :: m)
    else (a', b') :: Memory.write m a b

/-- `MEM[a + i] <- bytes[i]` for every `i` in turn (R37). -/
def Memory.writeBytes (m : Memory) (a : Nat) : List Byte → Memory
  | [] => m
  | b :: bs => Memory.writeBytes (m.write a b) (a + 1) bs

/-- Every cell from `lo` on: addresses strictly rise, exist, and hold another byte than the initial one. -/
def Memory.wfFrom (lo : Nat) : Memory → Bool
  | [] => true
  | (a, b) :: m =>
    decide (lo ≤ a) && decide (a < Config.memSize) && decide (b ≠ Memory.initial a) && Memory.wfFrom (a + 1) m

/-- The canonical form: two memories in it that read alike are the same list. -/
def Memory.wf (m : Memory) : Bool := Memory.wfFrom 0 m

/-- The bounds check: an access of no byte is always inside; one of `n` bytes when `addr + n - 1 ≤ 4095`
(R36, R37). `addr` is a mathematical integer, wrapped nowhere (R38, D13: notes/assumptions/13.md). -/
def inBounds (addr n : Nat) : Bool := n == 0 || decide (addr + n ≤ Config.memSize)

/-- `MemRead(addr, n)`: the `n` bytes, or none when it raises `OutOfBoundsAccess` (R36). -/
def State.memRead (s : State) (addr n : Nat) : Option (List Byte) :=
  if inBounds addr n then some ((List.range n).map fun k => s.mem.read (addr + k)) else none

/-- `MemWrite(addr, n, bytes)`: all bytes written, or none when it raises `OutOfBoundsAccess` (R37: the
whole range is checked before the first byte). -/
def State.memWrite (s : State) (addr : Nat) (bytes : List Byte) : Option State :=
  if inBounds addr bytes.length then some { s with mem := s.mem.writeBytes addr bytes } else none

/-- The instruction word at an address: "`MEM[PC] ++ MEM[PC+1]`", big-endian (R33); none when the two
bytes are not both inside memory (R62, D2: notes/assumptions/8.md). -/
def State.fetchWord (s : State) (a : Nat) : Option Word :=
  if inBounds a 2 then some (wordOfBytes (s.mem.read a) (s.mem.read (a + 1))) else none

/-! ## The call stack -/

/-- Push: "`STACK[SP] <- PC`, `SP <- SP + 1`", or none when all 16 slots are occupied (R77). -/
def State.push (s : State) (w : Word) : Option State :=
  if h : s.sp.val < 16 then
    some { s with stack := s.stack.set s.sp.val w, sp := ⟨s.sp.val + 1, by omega⟩ }
  else none

/-- Pop: "`SP <- SP - 1`" and the slot that was the top, or none when no slot is occupied (R75). The slot
keeps its content (R15). -/
def State.pop (s : State) : Option (Word × State) :=
  if h : 0 < s.sp.val then
    some (s.stack[s.sp.val - 1], { s with sp := ⟨s.sp.val - 1, by omega⟩ })
  else none

/-! ## Framebuffer, keys, entropy -/

/-- `FB[r][c]`; outside the framebuffer there is no pixel, and false stands for that. -/
def FrameBuffer.get (fb : FrameBuffer) (r c : Nat) : Bool :=
  if h : r < 32 ∧ c < 64 then fb[r][c] else false

/-- `FB[r][c] <- FB[r][c] ^ 1`; outside the framebuffer nothing (R112). -/
def FrameBuffer.flip (fb : FrameBuffer) (r c : Nat) : FrameBuffer :=
  if h : r < 32 ∧ c < 64 then fb.set r (fb[r].set c (!fb[r][c])) else fb

/-- Every pixel unset (R110). -/
def FrameBuffer.blank : FrameBuffer := Vector.replicate 32 (Vector.replicate 64 false)

/-- `FB[r][c]` of a state. -/
def State.pixel (s : State) (r c : Nat) : Bool := FrameBuffer.get s.fb r c

/-- `KEYS[k]` (R18). -/
def State.key (s : State) (k : Key) : Bool := s.keys[k.toNat]

/-- `KEYS[k] <- down` (R65, R66). -/
def State.setKey (s : State) (k : Key) (down : Bool) : State :=
  { s with keys := s.keys.set k.toNat down }

/-- `Entropy()`: one byte of the stream, and the stream moved on by one (R98). -/
def State.sampleEntropy (s : State) : Byte × State :=
  (Config.entropy s.draws, { s with draws := s.draws + 1 })

/-! ## The host's schedule (the model's own; notes/assumptions/6.md) -/

/-- The event the host sends now: the first of its schedule, or `STEP` when it has none left. -/
def State.nextEvent (s : State) : Event := s.schedule.headD .step

/-- The state with that event taken off the schedule. -/
def State.popEvent (s : State) : State := { s with schedule := s.schedule.tail }

/-! ## Placing an instruction where the next STEP fetches -/

/-- `s` with `word` as the very next instruction (notes/assumptions/7.md): a `PC` from which nothing can be
fetched becomes 512, a key wait ends, and a schedule that does not begin with `STEP` gets one in front;
then the two bytes are stored at `PC`, high byte first. -/
def State.placeWord (s : State) (word : Word) : State :=
  let pc : Word := if inBounds s.pc.toNat 2 then s.pc else 512
  { s with
    pc := pc
    wait := none
    schedule := if s.nextEvent = .step then s.schedule else .step :: s.schedule
    mem := s.mem.writeBytes pc.toNat [highByte word, lowByte word] }

end Sys2Proof.Machine
end

