-- ==== Sys2Proof/Machine/Flags.lean ====
section
/-! DEFINITION. The results and flags of the arithmetic (spec/42_alu.md R97): operands are unsigned, the
exact result is computed on integers, the result is narrowed, the flag is a comparison of the two. -/

namespace Sys2Proof.Machine

/-- "Addition: `(a + b) mod 256`" (R97). -/
def addResult (a b : Byte) : Byte := BitVec.ofNat 8 (a.toNat + b.toNat)

/-- "carry `a + b > 255`" (R97). -/
def addCarry (a b : Byte) : Bool := decide (a.toNat + b.toNat > 255)

/-- "Subtraction: `(a - b) mod 256`" (R97). -/
def subResult (a b : Byte) : Byte := BitVec.ofInt 8 ((a.toNat : Int) - (b.toNat : Int))

/-- "borrow `a < b`", the borrow itself and not its complement (R92, R97). -/
def subBorrow (a b : Byte) : Bool := decide (a.toNat < b.toNat)

/-- `a >> 1`, logical (R93). -/
def shrResult (a : Byte) : Byte := a >>> 1

/-- The bit `8xy6` shifts out: `a & 1` (R93). -/
def shrOut (a : Byte) : Byte := a &&& 1

/-- `(a << 1) mod 256` (R95). -/
def shlResult (a : Byte) : Byte := a <<< 1

/-- The bit `8xyE` shifts out: `a >> 7` (R95). -/
def shlOut (a : Byte) : Byte := a >>> 7

/-- `(a + b) mod 65536` (R101). -/
def idxAddResult (a b : Word) : Word := BitVec.ofNat 16 (a.toNat + b.toNat)

/-- "1 if `a + b > 65535` else 0" (R101, D14: notes/assumptions/14.md). -/
def idxAddCarry (a b : Word) : Bool := decide (a.toNat + b.toNat > 65535)

/-- `zext_16(b) * 5` (R102). -/
def glyphAddress (b : Byte) : Word := BitVec.ofNat 16 (b.toNat * 5)

/-- A timer's next value: "`DT - 1 if DT > 0 else 0`" (R64). -/
def countDown (t : Byte) : Byte := BitVec.ofNat 8 (t.toNat - 1)

/-- `V[x] <- result`, then `VF <- flag`: the order of `8xy4`, `8xy5`, `8xy7` (R96, D9:
notes/assumptions/11.md). -/
def State.setRegThenFlag (s : State) (x : RegIdx) (result : Byte) (flag : Bool) : State :=
  (s.setReg x result).setVF flag

/-- `VF <- out V[x]`, then `V[x] <- shift V[x]`, the second reading `V[x]` afresh: the order of `8xy6` and
`8xyE` (R93, R95, R96, D9: notes/assumptions/11.md). -/
def State.setFlagThenShift (s : State) (x : RegIdx) (out shift : Byte → Byte) : State :=
  let s' := s.setReg vfIdx (out (s.reg x))
  s'.setReg x (shift (s'.reg x))

end Sys2Proof.Machine
end

