-- ==== Sys2Proof/Machine/Operands.lean ====
section
/-! DEFINITION. Operand forms (spec/30_encoding.md R47): immediates are zero-extended, a register operand
is the register its field names, the one data addressing mode is `I` plus a small constant. -/

namespace Sys2Proof.Machine

/-- `zext_16(nnn)`: a jump target, or a value for `I` (R47). -/
def addrOperand (nnn : Addr12) : Word := nnn.setWidth 16

/-- `zext_16(V[x])` (R78, R101, R102). -/
def State.regZext (s : State) (x : RegIdx) : Word := (s.reg x).setWidth 16

/-- The base address of a data access: `I` as a mathematical integer (R38). -/
def State.base (s : State) : Nat := s.i.toNat

/-- How many registers `V[0]` to `V[x]` are: `x + 1` (R104, R105). -/
def rangeLength (x : RegIdx) : Nat := x.toNat + 1

/-- The register range `V[0], V[1], ..., V[x]` as a list of bytes (R104). -/
def State.regRange (s : State) (x : RegIdx) : List Byte :=
  (List.range (rangeLength x)).map fun k => s.reg (BitVec.ofNat 4 k)

/-- The key a register names, or none when its value is no key number (R126). -/
def keyOperand (b : Byte) : Option Key := if b.toNat < 16 then some (b.setWidth 4) else none

/-- `zext_8(k)` (R65). -/
def keyByte (k : Key) : Byte := k.setWidth 8

/-- The three decimal digits of a byte: hundreds, tens, units (R103). -/
def decimalDigits (b : Byte) : List Byte :=
  [BitVec.ofNat 8 (b.toNat / 100), BitVec.ofNat 8 (b.toNat / 10 % 10), BitVec.ofNat 8 (b.toNat % 10)]

/-- A skip when a condition holds: `PC <- PC + 2` on the advanced `PC` (R79). -/
def State.skipIf (s : State) (cond : Bool) : State := if cond then s.advance else s

end Sys2Proof.Machine
end

