-- ==== Sys2Proof/Machine/Alu.lean ====
section
/-! DEFINITION. The ALU (spec/42_alu.md): loads, add, logic, subtract, shifts, random. None can fault. -/

namespace Sys2Proof.Machine

/-- `6xnn` LD_I (R85). -/
def execLdI (x : RegIdx) (nn : Byte) (s : State) : Result := .next (s.setReg x nn)

/-- `7xnn` ADD_I: no flag (R86). -/
def execAddI (x : RegIdx) (nn : Byte) (s : State) : Result :=
  .next (s.setReg x (addResult (s.reg x) nn))

/-- `8xy0` LD_R (R87). -/
def execLdR (x y : RegIdx) (s : State) : Result := .next (s.setReg x (s.reg y))

/-- `8xy1` OR: `VF` is not touched (R88). -/
def execOr (x y : RegIdx) (s : State) : Result := .next (s.setReg x (s.reg x ||| s.reg y))

/-- `8xy2` AND: `VF` is not touched (R89). -/
def execAnd (x y : RegIdx) (s : State) : Result := .next (s.setReg x (s.reg x &&& s.reg y))

/-- `8xy3` XOR: `VF` is not touched (R90). -/
def execXor (x y : RegIdx) (s : State) : Result := .next (s.setReg x (s.reg x ^^^ s.reg y))

/-- `8xy4` ADD_R (R91). -/
def execAddR (x y : RegIdx) (s : State) : Result :=
  .next (s.setRegThenFlag x (addResult (s.reg x) (s.reg y)) (addCarry (s.reg x) (s.reg y)))

/-- `8xy5` SUB: `V[x] - V[y]` (R92). -/
def execSub (x y : RegIdx) (s : State) : Result :=
  .next (s.setRegThenFlag x (subResult (s.reg x) (s.reg y)) (subBorrow (s.reg x) (s.reg y)))

/-- `8xy7` SUBN: `V[y] - V[x]` (R94). -/
def execSubn (x y : RegIdx) (s : State) : Result :=
  .next (s.setRegThenFlag x (subResult (s.reg y) (s.reg x)) (subBorrow (s.reg y) (s.reg x)))

/-- `8xy6` SHR: `V[x]` in place, `y` ignored (R93, R52). -/
def execShr (x _y : RegIdx) (s : State) : Result := .next (s.setFlagThenShift x shrOut shrResult)

/-- `8xyE` SHL: `V[x]` in place, `y` ignored (R95, R52). -/
def execShl (x _y : RegIdx) (s : State) : Result := .next (s.setFlagThenShift x shlOut shlResult)

/-- `Cxnn` RND: one sample of the entropy port, masked (R98, R99). -/
def execRnd (x : RegIdx) (nn : Byte) (s : State) : Result :=
  let (draw, s') := s.sampleEntropy
  .next (s'.setReg x (draw &&& nn))

end Sys2Proof.Machine
end

