-- ==== Sys2Proof/Machine/Display.lean ====
section
/-! DEFINITION. The framebuffer controller (spec/44_display.md): clear, and the sprite draw as the loops
of R111. -/

namespace Sys2Proof.Machine

/-- `00E0` CLS: `VF` is not written (R110). -/
def execCls (s : State) : Result := .next { s with fb := FrameBuffer.blank }

/-- What the loops of R111 write: the framebuffer, and whether a set pixel has been cleared. -/
structure Canvas where
  fb : FrameBuffer
  hit : Bool

/-- The bit of a row byte at column offset `col`: "bit 7 is the leftmost" (R115, D6:
notes/assumptions/3.md). -/
def spriteBit (row : Byte) (col : Nat) : Bool := row.getLsbD (7 - col)

/-- The body of the inner loop at a pixel inside the framebuffer: collision, then exclusive or (R111,
R113). -/
def plot (g : Canvas) (r c : Nat) (bit : Bool) : Canvas :=
  if bit then { fb := g.fb.flip r c, hit := g.hit || g.fb.get r c } else g

/-- The inner loop of R111 over the given column offsets: it is left at the first pixel outside (R112). -/
def blitRow (r ox : Nat) (row : Byte) : List Nat → Canvas → Canvas
  | [], g => g
  | col :: cols, g =>
    if r > 31 ∨ ox + col > 63 then g
    else blitRow r ox row cols (plot g r (ox + col) (spriteBit row col))

/-- The outer loop of R111: row after row, each of 8 columns; `oy` is the screen row of the first byte. -/
def blit (ox oy : Nat) : List Byte → Canvas → Canvas
  | [], g => g
  | row :: rows, g => blit ox (oy + 1) rows (blitRow oy ox row (List.range 8) g)

/-- `Dxyn` DRW (R111): the coordinates are read before `VF` is reset (R113), all `n` rows are checked
before anything is written (R114, D12: notes/assumptions/12.md), nothing wraps (R112). -/
def execDrw (x y : RegIdx) (n : Nibble) (s : State) : Result :=
  match s.memRead s.base n.toNat with
  | none => raise (.outOfBoundsAccess s.base n.toNat)
  | some rows =>
    let g := blit (s.reg x).toNat (s.reg y).toNat rows { fb := s.fb, hit := false }
    .next ({ s with fb := g.fb }.setVF g.hit)

end Sys2Proof.Machine
end

