-- ==== Sys2Proof/Machine/Flow.lean ====
section
/-! DEFINITION. Control transfer (spec/41_flow.md): return, jump, call, indexed jump, the skips. Every
meaning is for the moment after the advance: `pc` holds the instruction's address plus 2 (R62). -/

namespace Sys2Proof.Machine

/-- `00EE` RET (R75). -/
def execRet (s : State) : Result :=
  match s.pop with
  | none => raise (.stackUnderflow (s.pc - 2))
  | some (target, s') => .next (s'.setPc target)

/-- `1nnn` JP (R76). -/
def execJp (nnn : Addr12) (s : State) : Result := .next (s.setPc (addrOperand nnn))

/-- `2nnn` CALL: pushes the advanced `PC` (R77). -/
def execCall (nnn : Addr12) (s : State) : Result :=
  match s.push s.pc with
  | none => raise (.stackOverflow (s.pc - 2))
  | some s' => .next (s'.setPc (addrOperand nnn))

/-- `Bnnn` JP_V0: the full 16-bit sum, not wrapped and not checked here (R78, D15:
notes/assumptions/8.md). -/
def execJpV0 (nnn : Addr12) (s : State) : Result :=
  .next (s.setPc (addrOperand nnn + s.regZext 0))

/-- `3xnn` SE_I (R80). -/
def execSeI (x : RegIdx) (nn : Byte) (s : State) : Result := .next (s.skipIf (s.reg x == nn))

/-- `4xnn` SNE_I (R81). -/
def execSneI (x : RegIdx) (nn : Byte) (s : State) : Result := .next (s.skipIf (s.reg x != nn))

/-- `5xy0` SE_R (R82). -/
def execSeR (x y : RegIdx) (s : State) : Result := .next (s.skipIf (s.reg x == s.reg y))

/-- `9xy0` SNE_R (R83). -/
def execSneR (x y : RegIdx) (s : State) : Result := .next (s.skipIf (s.reg x != s.reg y))

end Sys2Proof.Machine
end

