-- ==== Sys2Proof/Machine/Index.lean ====
section
/-! DEFINITION. The index register and the loads and stores (spec/43_index_memory.md). No transfer
changes `I` (R106). -/

namespace Sys2Proof.Machine

/-- `Annn` LD_IDX (R100). -/
def execLdIdx (nnn : Addr12) (s : State) : Result := .next (s.setI (addrOperand nnn))

/-- `Fx1E` ADD_IDX: both operands read before either write (R101). -/
def execAddIdx (x : RegIdx) (s : State) : Result :=
  .next ((s.setI (idxAddResult s.i (s.regZext x))).setVF (idxAddCarry s.i (s.regZext x)))

/-- `Fx29` LD_FONT: the whole byte times 5 (R102). -/
def execLdFont (x : RegIdx) (s : State) : Result := .next (s.setI (glyphAddress (s.reg x)))

/-- A store of bytes at `I`, or `OutOfBoundsAccess` with no byte written (R37). -/
def storeAtI (bytes : List Byte) (s : State) : Result :=
  match s.memWrite s.base bytes with
  | none => raise (.outOfBoundsAccess s.base bytes.length)
  | some s' => .next s'

/-- `Fx33` ST_BCD (R103). -/
def execStBcd (x : RegIdx) (s : State) : Result := storeAtI (decimalDigits (s.reg x)) s

/-- `Fx55` ST_REGS (R104). -/
def execStRegs (x : RegIdx) (s : State) : Result := storeAtI (s.regRange x) s

/-- `Fx65` LD_REGS: no register is written when the range is not wholly inside memory (R105). -/
def execLdRegs (x : RegIdx) (s : State) : Result :=
  match s.memRead s.base (rangeLength x) with
  | none => raise (.outOfBoundsAccess s.base (rangeLength x))
  | some bytes => .next (s.setRegsFrom 0 bytes)

end Sys2Proof.Machine
end

