-- ==== Sys2Proof/Machine/TimersKeys.lean ====
section
/-! DEFINITION. Timer access, key tests and the key wait (spec/45_timers_keys.md). -/

namespace Sys2Proof.Machine

/-- `Fx07` LD_DT (R120). -/
def execLdDt (x : RegIdx) (s : State) : Result := .next (s.setReg x s.dt)

/-- `Fx15` ST_DT (R121). -/
def execStDt (x : RegIdx) (s : State) : Result := .next (s.setDt (s.reg x))

/-- `Fx18` ST_ST (R122). -/
def execStSt (x : RegIdx) (s : State) : Result := .next (s.setSt (s.reg x))

/-- A skip when the latch flag of the key that `V[x]` names is `wanted`; a `V[x]` above 15 names no key
and raises `KeyIndexOutOfRange` before any effect (R126, D8: notes/assumptions/10.md). -/
def skipIfKey (x : RegIdx) (wanted : Bool) (s : State) : Result :=
  match keyOperand (s.reg x) with
  | none => raise (.keyIndexOutOfRange (s.reg x))
  | some k => .next (s.skipIf (s.key k == wanted))

/-- `Ex9E` SKP (R123). -/
def execSkp (x : RegIdx) (s : State) : Result := skipIfKey x true s

/-- `ExA1` SKNP (R124). -/
def execSknp (x : RegIdx) (s : State) : Result := skipIfKey x false s

/-- `Fx0A` LD_KEY: only `WAIT` is written; `KEY_DOWN` writes `V[x]` later (R125). -/
def execLdKey (x : RegIdx) (s : State) : Result := .next (s.setWait (some x))

end Sys2Proof.Machine
end

