-- ==== Sys2Proof/Machine/Events.lean ====
section
/-! DEFINITION. The five events and the two observations (spec/40_step_and_events.md,
spec/70_reset_and_hazards.md R150), and what the host has after each of a sequence of them. -/

namespace Sys2Proof.Machine

/-- `STEP` while Running: the stages fetch, decode, advance, execute (R62). A fault of any stage, the
execution's too, withholds the advance (R63, D11: notes/assumptions/16.md). -/
def runInstruction (s : State) : Result :=
  match s.fetchWord s.pc.toNat with
  | none => raise (.outOfBoundsAccess s.pc.toNat 2)
  | some word =>
    match decodeWord word with
    | none => raise (.unknownOpcode word s.pc)
    | some i => exec i s.advance

/-- `STEP`: nothing happens while the key wait is on (R61). -/
def stepEvent (s : State) : Result :=
  match s.wait with
  | some _ => .next s
  | none => runInstruction s

/-- `TICK`: both timers count down and stay at 0 (R64). -/
def tickEvent (s : State) : State := (s.setDt (countDown s.dt)).setSt (countDown s.st)

/-- `KEY_DOWN(k)`: the flag is set; a pending wait gets the key in its register and ends (R65). -/
def keyDownEvent (k : Key) (s : State) : State :=
  match s.wait with
  | some x => ((s.setKey k true).setReg x (keyByte k)).setWait none
  | none => s.setKey k true

/-- `KEY_UP(k)`: the flag is cleared, nothing else (R66). -/
def keyUpEvent (k : Key) (s : State) : State := s.setKey k false

/-- `RESET(image)`: whatever came before, the reset state with the image at 512, or `ProgramTooLarge`
(R150, R137). The model's own fields go on, DESIGN CHOICE (notes/assumptions/19.md): the host's schedule,
and the place in the entropy stream, so that no sample is provably one from before the `RESET` (R98). -/
def loadImage (image : List Byte) (s : State) : Result :=
  if imageWellFormed image then
    .next { State.reset with
      mem := Memory.writeBytes [] Config.progBase image
      draws := s.draws
      schedule := s.schedule }
  else raise (.programTooLarge image.length)

/-- The transition of an event. -/
def applyEvent (e : Event) (s : State) : Result :=
  match e with
  | .reset image => loadImage image s
  | .step => stepEvent s
  | .tick => .next (tickEvent s)
  | .keyDown k => .next (keyDownEvent k s)
  | .keyUp k => .next (keyUpEvent k s)

/-- `sound_active`: "the boolean `ST > 0`" (R69). -/
def soundActive (s : State) : Bool := decide (s.st.toNat > 0)

/-- The framebuffer observation: the 2048 pixels as (row, column, bit), row-major (R68, D25:
notes/assumptions/23.md). -/
def framebuffer (s : State) : List (Nat × Nat × Bool) :=
  (List.range 32).flatMap fun r => (List.range 64).map fun c => (r, c, s.pixel r c)

/-- Where the host is in its entropy stream. -/
def Holding.draws : Holding → Nat
  | .machine s => s.draws
  | .absent draws _ => draws

/-- The events the host sends next. -/
def Holding.schedule : Holding → List Event
  | .machine s => s.schedule
  | .absent _ schedule => schedule

/-- What a failed `RESET` leaves: no machine (R150, D19); the host's side is as it was, DESIGN CHOICE
(notes/assumptions/19.md). -/
def Holding.discard (m : Holding) : Holding := .absent m.draws m.schedule

/-- What the host has after an event, and the fault result. After a fault the machine is the one from
before (R63, R135), but a failed `RESET` leaves none (R150, D19). With no machine, only `RESET` has a
transition (U9); the machine it makes takes the host's side as it stands, not from the start, DESIGN
CHOICE (notes/assumptions/19.md). -/
def deliver (e : Event) (m : Holding) : Except Refusal (Holding × Option Fault) :=
  match m with
  | .absent draws schedule =>
    match e with
    | .reset image =>
      match loadImage image { State.reset with draws := draws, schedule := schedule } with
      | .next t => .ok (.machine t, none)
      | .fault f => .ok (m.discard, some f)
      | .refused r => .error r
    | .step | .tick | .keyDown _ | .keyUp _ => .error .noMachine
  | .machine s =>
    match applyEvent e s with
    | .next t => .ok (.machine t, none)
    | .fault (.programTooLarge len) => .ok (m.discard, some (.programTooLarge len))
    | .fault f => .ok (m, some f)
    | .refused r => .error r

/-- What the host has after a sequence of events, faulted steps included (R140: a faulted machine goes on
being sent events), and the list of their fault results. -/
def runEvents : List Event → Holding → Except Refusal (Holding × List (Option Fault))
  | [], m => .ok (m, [])
  | e :: es, m =>
    match deliver e m with
    | .error r => .error r
    | .ok (m', f) =>
      match runEvents es m' with
      | .error r => .error r
      | .ok (m'', fs) => .ok (m'', f :: fs)

end Sys2Proof.Machine
end

