-- ==== Sys2Proof/Machine/Step.lean ====
section
/-! DEFINITION. One step of the whole system: the host's next event, applied to the block (spec R71,
R72; notes/assumptions/6.md). -/

namespace Sys2Proof.Machine

/-- The host takes the next event off its schedule (`STEP` when it has none left) and the block makes
that event's transition. -/
def step (s : State) : Host.Outcome State Fault Refusal := applyEvent s.nextEvent s.popEvent

/-- `s` with the instruction whose bits are `w` (numbered as spec/opcode_table.json numbers them) where the
very next step fetches (notes/assumptions/7.md). -/
def State.withFetchWord (s : State) (nbits w : Nat) : State :=
  s.placeWord (BitVec.ofNat 16 (w % 2 ^ nbits))

end Sys2Proof.Machine
end

