-- ==== Sys2Proof/Safety.lean ====
section
/-! DEFINITION. The terms the statements are in: which state an event or instruction may write
(spec/10_state.md R24), what it then leaves alone, when an instruction faults (spec/60_exceptions.md R130
to R138), and the invariant of R23. -/

namespace Sys2Proof.Machine

/-! ## Write sets and frames -/

/-- A "writes" cell of R24: the parts of the state that may change. Registers, memory bytes, stack slots
and keys are listed one by one. -/
structure WriteSet where
  regs : List RegIdx := []
  i : Bool := false
  pc : Bool := false
  mem : List Nat := []
  slots : List Nat := []
  sp : Bool := false
  fb : Bool := false
  dt : Bool := false
  st : Bool := false
  keys : List Key := []
  wait : Bool := false
  draws : Bool := false

/-- `t` is as `s` outside the write set: every register, every byte of memory (by its read), every stack
slot, every pixel, every key not listed, and every other register whole. The host's schedule is never
written by the block. -/
structure AgreesOutside (w : WriteSet) (s t : State) : Prop where
  regs : ∀ x : RegIdx, x ∉ w.regs → t.reg x = s.reg x
  i : w.i = false → t.i = s.i
  pc : w.pc = false → t.pc = s.pc
  mem : ∀ a : Nat, a ∉ w.mem → t.mem.read a = s.mem.read a
  slots : ∀ (k : Nat) (h : k < 16), k ∉ w.slots → t.stack[k] = s.stack[k]
  sp : w.sp = false → t.sp = s.sp
  fb : w.fb = false → ∀ r c : Nat, t.pixel r c = s.pixel r c
  dt : w.dt = false → t.dt = s.dt
  st : w.st = false → t.st = s.st
  keys : ∀ k : Key, k ∉ w.keys → t.key k = s.key k
  wait : w.wait = false → t.wait = s.wait
  draws : w.draws = false → t.draws = s.draws
  schedule : t.schedule = s.schedule

/-- The addresses `a, a + 1, ..., a + n - 1`. -/
def addrRange (a n : Nat) : List Nat := (List.range n).map (a + ·)

/-- The registers `V[0]` to `V[x]`. -/
def regRangeIdx (x : RegIdx) : List RegIdx := (List.range (x.toNat + 1)).map (BitVec.ofNat 4)

/-- The "writes" column of R24 for an instruction, `PC`'s advance aside, which is not `exec`'s. The
addresses a store writes are computed from `I` before it. -/
def writeSet (i : Instr) (s : State) : WriteSet :=
  match i with
  | .cls => { fb := true }
  | .ret => { sp := true, pc := true }
  | .jp _ | .jpV0 _ => { pc := true }
  | .call _ => { slots := [s.sp.val], sp := true, pc := true }
  | .seI _ _ | .sneI _ _ | .seR _ _ | .sneR _ _ => { pc := true }
  | .ldI x _ | .addI x _ => { regs := [x] }
  | .ldR x _ | .or x _ | .and x _ | .xor x _ => { regs := [x] }
  | .addR x _ | .sub x _ | .subn x _ | .shr x _ | .shl x _ => { regs := [x, vfIdx] }
  | .ldIdx _ | .ldFont _ => { i := true }
  | .rnd x _ => { regs := [x], draws := true }
  | .drw _ _ _ => { regs := [vfIdx], fb := true }
  | .skp _ | .sknp _ => { pc := true }
  | .ldDt x => { regs := [x] }
  | .ldKey _ => { wait := true }
  | .stDt _ => { dt := true }
  | .stSt _ => { st := true }
  | .addIdx _ => { i := true, regs := [vfIdx] }
  | .stBcd _ => { mem := addrRange s.i.toNat 3 }
  | .stRegs x => { mem := addrRange s.i.toNat (x.toNat + 1) }
  | .ldRegs x => { regs := regRangeIdx x }

/-- "The instructions that write `VF` as a side effect, whatever their `x` and `y` fields, are exactly"
these seven (R11). -/
def writesFlag : Instr → Bool
  | .addR _ _ | .sub _ _ | .shr _ _ | .subn _ _ | .shl _ _ => true
  | .addIdx _ | .drw _ _ _ => true
  | .cls | .ret | .jp _ | .call _ | .jpV0 _ => false
  | .seI _ _ | .sneI _ _ | .seR _ _ | .sneR _ _ => false
  | .ldI _ _ | .addI _ _ | .ldR _ _ | .or _ _ | .and _ _ | .xor _ _ | .rnd _ _ => false
  | .ldIdx _ | .ldFont _ | .stBcd _ | .stRegs _ | .ldRegs _ => false
  | .skp _ | .sknp _ | .ldDt _ | .ldKey _ | .stDt _ | .stSt _ => false

/-- Does the instruction's own `x` field name `VF` as a register it writes (R11)? -/
def destIsVF : Instr → Bool
  | .ldI x _ | .addI x _ | .ldR x _ | .or x _ | .and x _ | .xor x _ | .rnd x _ => x == vfIdx
  | .addR x _ | .sub x _ | .shr x _ | .subn x _ | .shl x _ => x == vfIdx
  | .ldDt x | .ldRegs x => x == vfIdx
  | .cls | .ret | .jp _ | .call _ | .jpV0 _ => false
  | .seI _ _ | .sneI _ _ | .seR _ _ | .sneR _ _ => false
  | .ldIdx _ | .ldFont _ | .addIdx _ | .drw _ _ _ | .stBcd _ | .stRegs _ => false
  | .skp _ | .sknp _ | .ldKey _ | .stDt _ | .stSt _ => false

/-! ## When an instruction faults -/

/-- The fault an instruction raises when it executes in `s`, `PC` already advanced, or none: the third to
last column of R130, and R134's list of cases. -/
def faultCause (i : Instr) (s : State) : Option Fault :=
  match i with
  | .ret => if s.sp.val = 0 then some (.stackUnderflow (s.pc - 2)) else none
  | .call _ => if s.sp.val = 16 then some (.stackOverflow (s.pc - 2)) else none
  | .drw _ _ n =>
    if 1 ≤ n.toNat ∧ s.i.toNat + n.toNat - 1 > 4095
    then some (.outOfBoundsAccess s.i.toNat n.toNat) else none
  | .stBcd _ => if s.i.toNat ≥ 4094 then some (.outOfBoundsAccess s.i.toNat 3) else none
  | .stRegs x | .ldRegs x =>
    if s.i.toNat + x.toNat ≥ 4096
    then some (.outOfBoundsAccess s.i.toNat (x.toNat + 1)) else none
  | .skp x | .sknp x =>
    if (s.reg x).toNat > 15 then some (.keyIndexOutOfRange (s.reg x)) else none
  | .cls | .jp _ | .jpV0 _ | .seI _ _ | .sneI _ _ | .seR _ _ | .sneR _ _ => none
  | .ldI _ _ | .addI _ _ | .ldR _ _ | .or _ _ | .and _ _ | .xor _ _ => none
  | .addR _ _ | .sub _ _ | .shr _ _ | .subn _ _ | .shl _ _ | .rnd _ _ => none
  | .ldIdx _ | .ldFont _ | .addIdx _ | .ldDt _ | .ldKey _ | .stDt _ | .stSt _ => none

/-! ## Sprites, and event sequences -/

/-- R111's closed form: does the sprite that `Dxyn` draws in `s` put a 1 bit on the pixel `(r, c)`?
"`bit(r,c) = MEM[I + (r - oy)][7 - (c - ox)]`" for `oy <= r < oy + n` and `ox <= c < ox + 8`. -/
def State.spriteAt (s : State) (x y : RegIdx) (n : Nibble) (r c : Nat) : Bool :=
  let ox := (s.reg x).toNat
  let oy := (s.reg y).toNat
  decide (oy ≤ r ∧ r < oy + n.toNat ∧ ox ≤ c ∧ c < ox + 8) &&
    (s.mem.read (s.i.toNat + (r - oy))).getLsbD (7 - (c - ox))

/-- The events that leave a key wait on: all but `RESET` and `KEY_DOWN` (R19). -/
def keepsWaiting : Event → Bool
  | .step | .tick | .keyUp _ => true
  | .reset _ | .keyDown _ => false

/-- Is it the one event that loads a program (R150)? -/
def isReset : Event → Bool
  | .reset _ => true
  | .step | .tick | .keyDown _ | .keyUp _ => false

/-- `n` `TICK`s in a row. -/
def ticks : Nat → State → State
  | 0, s => s
  | n + 1, s => ticks n (tickEvent s)

/-! ## The invariant -/

/-- What R23 says of every state reachable from a `RESET`, less what the types already say (`SP ≤ 16`,
the ranges of the registers): `PC ≤ 0x10FE`, every occupied slot holds a value in 2..4096; and the
model's own, that memory is in its canonical form. -/
structure StateInv (s : State) : Prop where
  pc : s.pc.toNat ≤ 0x10FE
  slots : ∀ (k : Nat) (h : k < 16), k < s.sp.val → 2 ≤ s.stack[k].toNat ∧ s.stack[k].toNat ≤ 4096
  mem : s.mem.wf = true

end Sys2Proof.Machine
end

