-- ==== Sys2Proof/Certificates/Slice0/Obligations.lean ====
section
/-! DEFINITION. The statements about the machine, for the provers. Each docstring names the rule of spec/
it formalises, and the decision of the spec or the model's log entry it rests on where it does. -/

open Sys2Proof Sys2Proof.Machine

/-! ## Encoding -/

/-- R45 to R53: the bytes of every instruction, whatever follows them, decode to that instruction, with
every operand at every value, and leave what follows. -/
def Obligations.DecodeOfEncodeIsTheInstruction : Prop :=
  ∀ (i : Instr) (rest : List Byte), decode (encode i ++ rest) = .ok (i, rest)

/-- R45, R46: no word has two spellings and no bit of a word is dropped: a decoded instruction encodes to
the very word it came from. That this takes in the `y` of `8xy6` and `8xyE`, which plays no part in their
meaning (R52), is the model's choice: the instruction keeps it (notes/assumptions/21.md). -/
def Obligations.EncodeOfDecodeIsTheWord : Prop :=
  ∀ (w : Word) (i : Instr), decodeWord w = some i → encodeWord i = w

/-- R49, R50: the decoder follows the mask-and-match table: a word decodes to an instruction exactly when
it meets that instruction's row for some operands, it is unknown exactly when it meets no row, and no word
meets two rows. -/
def Obligations.DecodeFollowsMaskAndMatch : Prop :=
  ∀ w : Word,
    (∀ i, decodeWord w = some i → i.row ∈ opTable ∧ i.row.covers w = true) ∧
    (decodeWord w = none ↔ ∀ r ∈ opTable, r.covers w = false) ∧
    (∀ r ∈ opTable, ∀ q ∈ opTable, r.covers w = true → q.covers w = true → r = q)

/-- R46, R50, R51, R54: words written out from the encodings of every family decode to the instruction they
stand for, and unknown words to none. -/
def Obligations.SampleWordsDecode : Prop :=
  opTable.length = 34 ∧
  decodeWord 0b0000000011101110 = some .ret ∧
  decodeWord 0b0010101010111100 = some (.call 0xABC) ∧
  decodeWord 0b0011101001000010 = some (.seI 0xA 0x42) ∧
  decodeWord 0b1000101010110111 = some (.subn 0xA 0xB) ∧
  decodeWord 0b1000101011110110 = some (.shr 0xA 0xF) ∧
  decodeWord 0b1011000100100011 = some (.jpV0 0x123) ∧
  decodeWord 0b1101000100101010 = some (.drw 1 2 0xA) ∧
  decodeWord 0b1110000110011110 = some (.skp 1) ∧
  decodeWord 0b1111000101100101 = some (.ldRegs 1) ∧
  decodeWord 0b1110000110010011 = none ∧
  decodeWord 0b0000000000000000 = none

/-! ## The execution cycle -/

/-- R62 (D2, notes/assumptions/8.md, for the range of the fetch; the schedule is notes/assumptions/6.md):
when the host's next event is `STEP`, the machine is Running and the two bytes at `PC` decode to an
instruction, the step is that instruction executed with the event taken and `PC` moved on by 2, nothing
else changed. -/
def Obligations.StepRunsTheDecodedInstruction : Prop :=
  ∀ (s : State) (i : Instr), s.nextEvent = .step → s.wait = none → s.pc.toNat + 1 ≤ 4095 →
    decode [s.mem.read s.pc.toNat, s.mem.read (s.pc.toNat + 1)] = .ok (i, []) →
    step s = exec i { s with schedule := s.schedule.tail, pc := s.pc + 2 }

/-- R62, R134, R138 (D2, notes/assumptions/8.md): the faults of a `STEP` in stage order: first the fetch's,
then the unknown opcode, then the one the decoded instruction can raise. -/
def Obligations.StepFaultsInStageOrder : Prop :=
  ∀ s : State, s.nextEvent = .step → s.wait = none →
    (s.pc.toNat ≥ 4095 → step s = .fault (.outOfBoundsAccess s.pc.toNat 2)) ∧
    (s.pc.toNat ≤ 4094 → ∀ w : Word, w = wordOfBytes (s.mem.read s.pc.toNat) (s.mem.read (s.pc.toNat + 1)) →
      (decodeWord w = none → step s = .fault (.unknownOpcode w s.pc)) ∧
      (∀ i f, decodeWord w = some i → faultCause i s.popEvent.advance = some f → step s = .fault f))

/-- R131: `UnknownOpcode` is the result of a `STEP` exactly when the machine is Running, the fetch succeeds
and the fetched word decodes to no instruction (so never of a word skipped over or read as data), and then
the host still has the machine as it was, `PC` at the unknown word. The range in which the fetch succeeds
is the spec's decision D2 (notes/assumptions/8.md), the `PC` that the fault carries its D21
(notes/assumptions/17.md), that `PC` has not moved its D11 (notes/assumptions/16.md). -/
def Obligations.UnknownOpcodeExactlyForUnknownWords : Prop :=
  ∀ (s : State) (w pc : Word),
    (stepEvent s = .fault (.unknownOpcode w pc) ↔
      s.wait = none ∧ s.pc.toNat + 1 ≤ 4095 ∧ pc = s.pc ∧
      w = wordOfBytes (s.mem.read s.pc.toNat) (s.mem.read (s.pc.toNat + 1)) ∧ decodeWord w = none) ∧
    (stepEvent s = .fault (.unknownOpcode w pc) →
      deliver .step (.machine s) = .ok (.machine s, some (.unknownOpcode w pc)))

/-- R61: while a key wait is on, any number of `STEP`s change nothing at all (no fetch, no `PC`, no entropy
sample) and each reports no fault. -/
def Obligations.StepsWhileWaitingDoNothing : Prop :=
  ∀ (s : State) (x : RegIdx) (n : Nat), s.wait = some x →
    stepEvent s = .next s ∧
    runEvents (List.replicate n .step) (.machine s) = .ok (.machine s, List.replicate n none)

/-- R64: `TICK` takes 1 from each timer that is not 0 and leaves a 0 at 0, whether Running or waiting, changes
nothing else and raises nothing. -/
def Obligations.TickCountsBothTimersDown : Prop :=
  ∀ s : State, ∃ t, applyEvent .tick s = .next t ∧
    t.dt.toNat = (if s.dt.toNat > 0 then s.dt.toNat - 1 else 0) ∧
    t.st.toNat = (if s.st.toNat > 0 then s.st.toNat - 1 else 0) ∧
    AgreesOutside { dt := true, st := true } s t

/-- R65: `KEY_DOWN(k)` sets the flag; when a wait is pending on `x`, and only then, it also writes the key
number to `V[x]` and ends the wait; nothing else changes and nothing is raised. -/
def Obligations.KeyDownSetsTheFlagAndEndsAWait : Prop :=
  ∀ (s : State) (k : Key), ∃ t, applyEvent (.keyDown k) s = .next t ∧ t.key k = true ∧
    (∀ x, s.wait = some x → (t.reg x).toNat = k.toNat ∧ t.wait = none ∧
      AgreesOutside { keys := [k], regs := [x], wait := true } s t) ∧
    (s.wait = none → AgreesOutside { keys := [k] } s t)

/-- R66: `KEY_UP(k)` clears the flag and does nothing else, a pending wait included. -/
def Obligations.KeyUpClearsTheFlagOnly : Prop :=
  ∀ (s : State) (k : Key), ∃ t, applyEvent (.keyUp k) s = .next t ∧ t.key k = false ∧
    AgreesOutside { keys := [k] } s t

/-- R63, R135 (D11, notes/assumptions/16.md: the advance of `PC` is withheld too; D19,
notes/assumptions/19.md: a failed `RESET` leaves no machine, the host's side as it was): after a fault the
host has the machine exactly as it was before the event. -/
def Obligations.FaultLeavesTheStateAsItWas : Prop :=
  ∀ (e : Event) (s : State) (m : Holding) (f : Fault),
    deliver e (.machine s) = .ok (m, some f) →
      applyEvent e s = .fault f ∧
      ((isReset e = false → m = .machine s) ∧
        (isReset e = true → m = .absent s.draws s.schedule ∧ ∃ len, f = .programTooLarge len))

/-- R140 (derived there from R135): a machine that faults goes on faulting in the same way under every
sequence of events without a `RESET`. -/
def Obligations.FaultedMachineStaysFaulted : Prop :=
  ∀ (es : List Event) (s : State) (f : Fault), stepEvent s = .fault f → (∀ e ∈ es, isReset e = false) →
    ∃ u fs, runEvents es (.machine s) = .ok (.machine u, fs) ∧ stepEvent u = .fault f

/-- The model's own (notes/assumptions/6.md, from R72 and D18): running the machine step by step over a
schedule is delivering the events of the schedule one after another, as long as none faults. -/
def Obligations.RunFollowsTheSchedule : Prop :=
  ∀ (es : List Event) (s u : State), s.schedule = [] →
    (Host.Core.run Sys2Proof.core es.length ({ s with schedule := es } : State) = .next u ↔
      runEvents es (.machine s) = .ok (.machine u, List.replicate es.length none))

/-- The model's own (notes/assumptions/7.md): a word placed by `withFetchWord` is what the very next step
decodes and runs. -/
def Obligations.PlacedWordIsRunNext : Prop :=
  ∀ (s : State) (w : Nat) (i : Instr), s.mem.wf = true → decodeTableWord 16 w = some i →
    step (s.withFetchWord 16 w) = exec i (s.withFetchWord 16 w).popEvent.advance

/-! ## Reset and the observations -/

/-- R150, R151, R32 (D4, notes/assumptions/1.md, for the zeros of registers, stack, pixels, timers and keys;
D7, notes/assumptions/2.md, for the font; D26, notes/assumptions/19.md): `RESET` with an image of at most
3584 bytes gives, whatever came before, `PC` = 512, Running, everything else 0, the font at 0 to 79, the
image at 512 and 0 in every other byte of memory. -/
def Obligations.ResetLoadsTheImage : Prop :=
  ∀ (s : State) (image : List Byte), image.length ≤ 3584 →
    ∃ t, applyEvent (.reset image) s = .next t ∧
      t.pc.toNat = 512 ∧ t.wait = none ∧ (∀ x, t.reg x = 0) ∧ t.i = 0 ∧ t.sp.val = 0 ∧
      (∀ (k : Nat) (h : k < 16), t.stack[k] = 0) ∧ (∀ r c, t.pixel r c = false) ∧
      t.dt = 0 ∧ t.st = 0 ∧ (∀ k, t.key k = false) ∧
      ∀ a, a < 4096 → t.mem.read a =
        if h : 512 ≤ a ∧ a < 512 + image.length then image[a - 512]
        else if a < 80 then font.getD a 0 else 0

/-- R137: `RESET` accepts an image of up to 3584 bytes, which then fills memory from 512 on (to 4095 at the
longest), and raises `ProgramTooLarge` exactly when the image is longer than 3584 bytes; no `STEP` ever raises
it. That a failed `RESET` leaves no machine where there was one, and that then only a further `RESET` has a
transition, is the spec's decision D19 (notes/assumptions/19.md); that the host's place in its entropy stream
and its events go on meanwhile is the model's choice (the same entry). -/
def Obligations.ProgramTooLargeExactlyOver3584 : Prop :=
  ∀ (s : State) (image : List Byte),
    (image.length ≤ 3584 → ∃ t, applyEvent (.reset image) s = .next t ∧
      ∀ (k : Nat) (h : k < image.length), t.mem.read (512 + k) = image[k]) ∧
    (image.length > 3584 → applyEvent (.reset image) s = .fault (.programTooLarge image.length)) ∧
    (image.length > 3584 → ∀ m : Holding,
      deliver (.reset image) m = .ok (.absent m.draws m.schedule, some (.programTooLarge image.length))) ∧
    (∀ draws schedule, (∀ e, isReset e = false → deliver e (.absent draws schedule) = .error .noMachine) ∧
      (image.length ≤ 3584 → ∃ t, deliver (.reset image) (.absent draws schedule) = .ok (.machine t, none) ∧
        t.draws = draws ∧ t.schedule = schedule)) ∧
    (∀ len, stepEvent s ≠ .fault (.programTooLarge len))

/-- R21, R32 (D4 and D7, notes/assumptions/1.md and 2.md): the state after reset, every item of R21's table,
memory's regions included. -/
def Obligations.StateAfterReset : Prop :=
  State.reset.pc.toNat = 512 ∧ State.reset.wait = none ∧ State.reset.sp.val = 0 ∧ State.reset.i = 0 ∧
  State.reset.dt = 0 ∧ State.reset.st = 0 ∧ soundActive State.reset = false ∧
  (∀ x, State.reset.reg x = 0) ∧ (∀ k, State.reset.key k = false) ∧
  (∀ r c, State.reset.pixel r c = false) ∧
  (∀ (k : Nat) (h : k < 16), State.reset.stack[k] = 0) ∧
  font.length = 80 ∧ (∀ a, a < 80 → State.reset.mem.read a = font.getD a 0) ∧
  State.reset.mem.read 0 = 0xF0 ∧ State.reset.mem.read 79 = 0x80 ∧
  (∀ a, 80 ≤ a → State.reset.mem.read a = 0)

/-- R68 (D25, notes/assumptions/23.md, for the order): the framebuffer observation is the 2048 pixels, each
once, in row-major order. -/
def Obligations.FramebufferListsEveryPixelRowMajor : Prop :=
  ∀ s : State, (framebuffer s).length = 2048 ∧
    ∀ r c, r < 32 → c < 64 → (framebuffer s)[r * 64 + c]? = some (r, c, s.pixel r c)

/-! ## Control transfer -/

/-- R75: `00EE` pops the top slot into `PC` (a value in 2..4096 in every state that meets the invariant of
R23; from 4095 on the fault comes at the next fetch), the slot keeping its content; with no occupied slot it
raises `StackUnderflow`. -/
def Obligations.RetPopsIntoPc : Prop :=
  decodeWord 0x00EE = some .ret ∧
  ∀ s : State,
    (∀ h : 0 < s.sp.val, ∃ t, exec .ret s = .next t ∧ t.sp.val = s.sp.val - 1 ∧
      t.pc = s.stack[s.sp.val - 1] ∧ (StateInv s → 2 ≤ t.pc.toNat ∧ t.pc.toNat ≤ 4096) ∧
      (t.pc.toNat ≥ 4095 → s.wait = none → stepEvent t = .fault (.outOfBoundsAccess t.pc.toNat 2)) ∧
      AgreesOutside { sp := true, pc := true } s t) ∧
    (s.sp.val = 0 → exec .ret s = .fault (.stackUnderflow (s.pc - 2)))

/-- R76: `1nnn` sets `PC` to `nnn`, changes nothing else and never faults; a jump to 4095 is accepted and
the next `STEP` faults; a jump to its own address leaves the state as it is at every further `STEP`. -/
def Obligations.JpSetsPc : Prop :=
  ∀ (nnn : Addr12) (s : State),
    decodeWord (0x1#4 ++ nnn) = some (.jp nnn) ∧
    (∃ t, exec (.jp nnn) s = .next t ∧ t.pc.toNat = nnn.toNat ∧ AgreesOutside { pc := true } s t ∧
      (nnn = 0xFFF → s.wait = none → stepEvent t = .fault (.outOfBoundsAccess 4095 2))) ∧
    (s.wait = none → s.pc.toNat = nnn.toNat → s.fetchWord s.pc.toNat = some (0x1#4 ++ nnn) →
      stepEvent s = .next s)

/-- R77: `2nnn` pushes the advanced `PC`, which is the address of the next instruction, into slot `SP`, counts
`SP` up and jumps to `nnn`, and a `00EE` resumes at that instruction; with 16 occupied slots it raises `StackOverflow`. -/
def Obligations.CallPushesTheReturnAddress : Prop :=
  ∀ (nnn : Addr12) (s : State),
    decodeWord (0x2#4 ++ nnn) = some (.call nnn) ∧
    (∀ h : s.sp.val < 16, ∃ t, exec (.call nnn) s = .next t ∧ t.stack[s.sp.val] = s.pc ∧
      t.sp.val = s.sp.val + 1 ∧ t.pc.toNat = nnn.toNat ∧
      (∃ u, exec .ret t = .next u ∧ u.pc = s.pc) ∧
      AgreesOutside { slots := [s.sp.val], sp := true, pc := true } s t) ∧
    (s.sp.val = 16 → exec (.call nnn) s = .fault (.stackOverflow (s.pc - 2)))

/-- R75, R77: a return right after a call resumes behind it, with the stack's occupied slots, and everything
else, as before the call: only the content of the slot above them may differ. -/
def Obligations.RetAfterCallResumes : Prop :=
  ∀ (nnn : Addr12) (s t : State), exec (.call nnn) s = .next t →
    ∃ u, exec .ret t = .next u ∧ u.pc = s.pc ∧ u.sp = s.sp ∧
      AgreesOutside { slots := [s.sp.val] } s u

/-- R78 (D15, notes/assumptions/8.md): `Bnnn` sets `PC` to the full sum of `nnn` and `V[0]`, at most 0x10FE,
whatever the `x` nibble of the word; it never faults, and when the sum is 4095 or more the next `STEP`
does. -/
def Obligations.JpV0AddsV0 : Prop :=
  ∀ (nnn : Addr12) (s : State),
    decodeWord (0xB#4 ++ nnn) = some (.jpV0 nnn) ∧
    ∃ t, exec (.jpV0 nnn) s = .next t ∧ t.pc.toNat = nnn.toNat + (s.reg 0).toNat ∧ t.pc.toNat ≤ 0x10FE ∧
      AgreesOutside { pc := true } s t ∧
      (t.pc.toNat ≥ 4095 → s.wait = none → stepEvent t = .fault (.outOfBoundsAccess t.pc.toNat 2))

/-- R80 to R83: the four register skips add 2 to the advanced `PC` exactly when their comparison holds,
change nothing else, and never fault. -/
def Obligations.RegisterSkips : Prop :=
  ∀ (x y : RegIdx) (nn : Byte) (s : State),
    (decodeWord (0x3#4 ++ x ++ nn) = some (.seI x nn) ∧
      ∃ t, exec (.seI x nn) s = .next t ∧ AgreesOutside { pc := true } s t ∧
        t.pc = if s.reg x = nn then s.pc + 2 else s.pc) ∧
    (decodeWord (0x4#4 ++ x ++ nn) = some (.sneI x nn) ∧
      ∃ t, exec (.sneI x nn) s = .next t ∧ AgreesOutside { pc := true } s t ∧
        t.pc = if s.reg x ≠ nn then s.pc + 2 else s.pc) ∧
    ((decodeWord (0x5#4 ++ x ++ y ++ 0x0#4) = some (.seR x y) ∧
        ∀ n : Nibble, n ≠ 0 → decodeWord (0x5#4 ++ x ++ y ++ n) = none) ∧
      ∃ t, exec (.seR x y) s = .next t ∧ AgreesOutside { pc := true } s t ∧
        t.pc = if s.reg x = s.reg y then s.pc + 2 else s.pc) ∧
    ((decodeWord (0x9#4 ++ x ++ y ++ 0x0#4) = some (.sneR x y) ∧
        ∀ n : Nibble, n ≠ 0 → decodeWord (0x9#4 ++ x ++ y ++ n) = none) ∧
      ∃ t, exec (.sneR x y) s = .next t ∧ AgreesOutside { pc := true } s t ∧
        t.pc = if s.reg x ≠ s.reg y then s.pc + 2 else s.pc)

/-! ## The ALU -/

/-- R85, R86: `6xnn` loads the immediate; `7xnn` adds it modulo 256 and writes no flag. -/
def Obligations.ImmediateLoadAndAdd : Prop :=
  ∀ (x : RegIdx) (nn : Byte) (s : State),
    (decodeWord (0x6#4 ++ x ++ nn) = some (.ldI x nn) ∧
      ∃ t, exec (.ldI x nn) s = .next t ∧ t.reg x = nn ∧ AgreesOutside { regs := [x] } s t) ∧
    (decodeWord (0x7#4 ++ x ++ nn) = some (.addI x nn) ∧
      ∃ t, exec (.addI x nn) s = .next t ∧
        (t.reg x).toNat = ((s.reg x).toNat + nn.toNat) % 256 ∧ AgreesOutside { regs := [x] } s t)

/-- R87 to R90: the register move and the three logic operations, bit by bit; `VF` keeps its value unless it
is the destination. -/
def Obligations.MoveAndLogic : Prop :=
  ∀ (x y : RegIdx) (s : State),
    (decodeWord (0x8#4 ++ x ++ y ++ 0x0#4) = some (.ldR x y) ∧
      ∃ t, exec (.ldR x y) s = .next t ∧ t.reg x = s.reg y ∧ AgreesOutside { regs := [x] } s t) ∧
    (decodeWord (0x8#4 ++ x ++ y ++ 0x1#4) = some (.or x y) ∧
      ∃ t, exec (.or x y) s = .next t ∧ AgreesOutside { regs := [x] } s t ∧
        ∀ k, (t.reg x).getLsbD k = ((s.reg x).getLsbD k || (s.reg y).getLsbD k)) ∧
    (decodeWord (0x8#4 ++ x ++ y ++ 0x2#4) = some (.and x y) ∧
      ∃ t, exec (.and x y) s = .next t ∧ AgreesOutside { regs := [x] } s t ∧
        ∀ k, (t.reg x).getLsbD k = ((s.reg x).getLsbD k && (s.reg y).getLsbD k)) ∧
    (decodeWord (0x8#4 ++ x ++ y ++ 0x3#4) = some (.xor x y) ∧
      ∃ t, exec (.xor x y) s = .next t ∧ AgreesOutside { regs := [x] } s t ∧
        ∀ k, (t.reg x).getLsbD k = ((s.reg x).getLsbD k ^^ (s.reg y).getLsbD k))

/-- R91, R92, R94, R96, R97: add, subtract and reverse subtract: `VF` ends as the carry, or as the borrow
itself, of the old operands, `V[x]` as the result modulo 256. That for `x` = F the flag wins is the spec's
decision D9 (notes/assumptions/11.md). -/
def Obligations.AddAndSubtractWithFlag : Prop :=
  ∀ (x y : RegIdx) (s : State),
    (∃ t, exec (.addR x y) s = .next t ∧ AgreesOutside { regs := [x, vfIdx] } s t ∧
      (x ≠ vfIdx → (t.reg x).toNat = ((s.reg x).toNat + (s.reg y).toNat) % 256) ∧
      (t.reg vfIdx).toNat = if (s.reg x).toNat + (s.reg y).toNat > 255 then 1 else 0) ∧
    (∃ t, exec (.sub x y) s = .next t ∧ AgreesOutside { regs := [x, vfIdx] } s t ∧
      (x ≠ vfIdx → ((t.reg x).toNat : Int) = ((s.reg x).toNat - (s.reg y).toNat : Int) % 256) ∧
      (t.reg vfIdx).toNat = if (s.reg x).toNat < (s.reg y).toNat then 1 else 0) ∧
    (∃ t, exec (.subn x y) s = .next t ∧ AgreesOutside { regs := [x, vfIdx] } s t ∧
      (x ≠ vfIdx → ((t.reg x).toNat : Int) = ((s.reg y).toNat - (s.reg x).toNat : Int) % 256) ∧
      (t.reg vfIdx).toNat = if (s.reg y).toNat < (s.reg x).toNat then 1 else 0)

/-- R93, R95, R96, R52: the shifts move `V[x]` by one place and put the bit shifted out in `VF`, and do not
read `y`. That for `x` = F the flag itself is shifted, so that `8Fy6` leaves 0 and `8FyE` leaves 2 or 0, is
the spec's decision D9 (notes/assumptions/11.md). -/
def Obligations.ShiftsByOne : Prop :=
  ∀ (x y : RegIdx) (s : State),
    (∃ t, exec (.shr x y) s = .next t ∧ AgreesOutside { regs := [x, vfIdx] } s t ∧
      (x ≠ vfIdx → (t.reg x).toNat = (s.reg x).toNat / 2 ∧ (t.reg vfIdx).toNat = (s.reg x).toNat % 2) ∧
      (x = vfIdx → t.reg vfIdx = 0)) ∧
    (∃ t, exec (.shl x y) s = .next t ∧ AgreesOutside { regs := [x, vfIdx] } s t ∧
      (x ≠ vfIdx → (t.reg x).toNat = (s.reg x).toNat * 2 % 256 ∧
        (t.reg vfIdx).toNat = (s.reg x).toNat / 128) ∧
      (x = vfIdx → t.reg vfIdx = if (s.reg vfIdx).toNat ≥ 128 then 2 else 0))

/-- R98, R99 (the stream and its counter are the model's form of D17, notes/assumptions/5.md): `Cxnn` takes
one sample, whatever its value, and writes it masked by `nn`; the sample counter moves on by one. -/
def Obligations.RndMasksOneSample : Prop :=
  ∀ (x : RegIdx) (nn : Byte) (s : State),
    ∃ t, exec (.rnd x nn) s = .next t ∧ t.reg x = Config.entropy s.draws &&& nn ∧
      t.reg x &&& ~~~nn = 0 ∧ t.draws = s.draws + 1 ∧
      AgreesOutside { regs := [x], draws := true } s t

/-- R98 (D17, notes/assumptions/5.md): no other instruction samples the entropy input, nor does a `STEP` while
waiting, a `TICK` or a key event. -/
def Obligations.OnlyRndSamplesEntropy : Prop :=
  ∀ s t : State,
    (∀ i, exec i s = .next t → (∀ x nn, i ≠ .rnd x nn) → t.draws = s.draws) ∧
    (∀ e, e ≠ .step → applyEvent e s = .next t → t.draws = s.draws) ∧
    (s.wait ≠ none → stepEvent s = .next t → t.draws = s.draws)

/-! ## Index register, stores, loads -/

/-- R100, R102: `Annn` sets `I` to `nnn`; `Fx29` sets it to the whole byte `V[x]` times 5. Neither writes a
flag or faults. -/
def Obligations.SetIndex : Prop :=
  ∀ (nnn : Addr12) (x : RegIdx) (s : State),
    (decodeWord (0xA#4 ++ nnn) = some (.ldIdx nnn) ∧
      ∃ t, exec (.ldIdx nnn) s = .next t ∧ t.i.toNat = nnn.toNat ∧ AgreesOutside { i := true } s t) ∧
    (decodeWord (0xF#4 ++ x ++ 0x29#8) = some (.ldFont x) ∧
      ∃ t, exec (.ldFont x) s = .next t ∧ t.i.toNat = (s.reg x).toNat * 5 ∧
        AgreesOutside { i := true } s t)

/-- R101 (D14, notes/assumptions/14.md, for the carry out of 16 bits): `Fx1E` adds `V[x]` to `I` modulo 65536
and puts the carry out of 16 bits, so nothing at 12 bits, in `VF`; with `x` = F the old `VF` is added. -/
def Obligations.AddToIndexCarriesOutOf16Bits : Prop :=
  ∀ (x : RegIdx) (s : State),
    ∃ t, exec (.addIdx x) s = .next t ∧ t.i.toNat = (s.i.toNat + (s.reg x).toNat) % 65536 ∧
      (t.reg vfIdx).toNat = (if s.i.toNat + (s.reg x).toNat > 65535 then 1 else 0) ∧
      AgreesOutside { i := true, regs := [vfIdx] } s t

/-- R103: `Fx33` stores the hundreds, tens and units digit of `V[x]` at `I`, `I+1`, `I+2`, leading zeros
included, and nothing else; for `I >= 4094` it raises `OutOfBoundsAccess`. -/
def Obligations.BcdStoresThreeDigits : Prop :=
  ∀ (x : RegIdx) (s : State), s.mem.wf = true →
    decodeWord (0xF#4 ++ x ++ 0x33#8) = some (.stBcd x) ∧
    (s.i.toNat + 2 ≤ 4095 → ∃ t, exec (.stBcd x) s = .next t ∧
      (t.mem.read s.i.toNat).toNat = (s.reg x).toNat / 100 ∧
      (t.mem.read (s.i.toNat + 1)).toNat = (s.reg x).toNat / 10 % 10 ∧
      (t.mem.read (s.i.toNat + 2)).toNat = (s.reg x).toNat % 10 ∧
      AgreesOutside { mem := addrRange s.i.toNat 3 } s t) ∧
    (s.i.toNat + 2 > 4095 → exec (.stBcd x) s = .fault (.outOfBoundsAccess s.i.toNat 3))

/-- R104: `Fx55` stores `V[0]` to `V[x]` at `I` to `I + x`, and nothing else, `I` unchanged; when `I + x > 4095`
it raises `OutOfBoundsAccess`. -/
def Obligations.StoreRegistersAtI : Prop :=
  ∀ (x : RegIdx) (s : State), s.mem.wf = true →
    decodeWord (0xF#4 ++ x ++ 0x55#8) = some (.stRegs x) ∧
    (s.i.toNat + x.toNat ≤ 4095 → ∃ t, exec (.stRegs x) s = .next t ∧
      (∀ k : RegIdx, k.toNat ≤ x.toNat → t.mem.read (s.i.toNat + k.toNat) = s.reg k) ∧
      AgreesOutside { mem := addrRange s.i.toNat (x.toNat + 1) } s t) ∧
    (s.i.toNat + x.toNat > 4095 →
      exec (.stRegs x) s = .fault (.outOfBoundsAccess s.i.toNat (x.toNat + 1)))

/-- R105: `Fx65` loads `V[0]` to `V[x]` from `I` to `I + x`, and nothing else, `I` and memory unchanged; when
`I + x > 4095` it raises `OutOfBoundsAccess`. -/
def Obligations.LoadRegistersFromI : Prop :=
  ∀ (x : RegIdx) (s : State),
    decodeWord (0xF#4 ++ x ++ 0x65#8) = some (.ldRegs x) ∧
    (s.i.toNat + x.toNat ≤ 4095 → ∃ t, exec (.ldRegs x) s = .next t ∧
      (∀ k : RegIdx, k.toNat ≤ x.toNat → t.reg k = s.mem.read (s.i.toNat + k.toNat)) ∧
      AgreesOutside { regs := regRangeIdx x } s t) ∧
    (s.i.toNat + x.toNat > 4095 →
      exec (.ldRegs x) s = .fault (.outOfBoundsAccess s.i.toNat (x.toNat + 1)))

/-- R107: `Fx55` followed by `Fx65` with the same `x` and the same `I` is an identity on the registers (and so
changes nothing but the stored bytes), whenever the store does not fault. -/
def Obligations.StoreThenLoadIsIdentity : Prop :=
  ∀ (x : RegIdx) (s t : State), s.mem.wf = true → exec (.stRegs x) s = .next t →
    ∃ u, exec (.ldRegs x) t = .next u ∧ u.v = s.v ∧
      AgreesOutside { mem := addrRange s.i.toNat (x.toNat + 1) } s u

/-- R44, R33 (derived there): a store is seen by the next fetch: after `Fx55` the word fetched from two of the
stored bytes is the two registers, high byte first. -/
def Obligations.StoredBytesAreFetched : Prop :=
  ∀ (x : RegIdx) (s t : State) (j k : RegIdx), s.mem.wf = true → exec (.stRegs x) s = .next t →
    k.toNat ≤ x.toNat → k.toNat = j.toNat + 1 →
    t.fetchWord (s.i.toNat + j.toNat) = some (wordOfBytes (s.reg j) (s.reg k))

/-- R36, R37, R40 (R38, D13, notes/assumptions/13.md: addresses wrap nowhere): the access primitives check the
whole range first, an access of no byte never faults, and a read returns the last bytes written, every
other byte as it was. -/
def Obligations.MemoryAccessIsCheckedAndKept : Prop :=
  ∀ (s : State) (a n : Nat) (bytes : List Byte), s.mem.wf = true →
    (s.memRead a 0 = some [] ∧ s.memWrite a [] = some s) ∧
    (1 ≤ n → a + n - 1 > 4095 → s.memRead a n = none) ∧
    (1 ≤ bytes.length → a + bytes.length - 1 > 4095 → s.memWrite a bytes = none) ∧
    (1 ≤ bytes.length → a + bytes.length - 1 ≤ 4095 → ∃ t, s.memWrite a bytes = some t ∧
      t.memRead a bytes.length = some bytes ∧ AgreesOutside { mem := addrRange a bytes.length } s t)

/-- The model's own (notes/assumptions/22.md): the canonical form is canonical: two memories in it that read
alike at every address are the same data. -/
def Obligations.CanonicalMemoriesThatReadAlikeAreEqual : Prop :=
  ∀ m m' : Memory, m.wf = true → m'.wf = true → (∀ a, a < 4096 → m.read a = m'.read a) → m = m'

/-! ## Display -/

/-- R110: `00E0` clears all 2048 pixels and changes nothing else, `VF` included. -/
def Obligations.ClsClearsEveryPixel : Prop :=
  decodeWord 0x00E0 = some .cls ∧
  ∀ s : State, ∃ t, exec .cls s = .next t ∧
    (∀ r c, r < 32 → c < 64 → t.pixel r c = false) ∧ AgreesOutside { fb := true } s t

/-- R111 to R113, R115 (D6, notes/assumptions/3.md, for the bit order; D5, notes/assumptions/4.md): the loops
of `Dxyn` do what the closed form says: each pixel inside the framebuffer is xored with the sprite's bit
there, pixels outside are dropped and nothing wraps, and `VF` ends as 1 exactly when some set pixel met a 1
bit. The coordinates are the old registers, also for `x` or `y` = F. -/
def Obligations.DrwIsTheClosedForm : Prop :=
  ∀ (x y : RegIdx) (n : Nibble) (s : State), n = 0 ∨ s.i.toNat + n.toNat - 1 ≤ 4095 →
    ∃ t, exec (.drw x y n) s = .next t ∧
      (∀ r c, r < 32 → c < 64 → t.pixel r c = (s.pixel r c ^^ s.spriteAt x y n r c)) ∧
      ((∃ r c, r < 32 ∧ c < 64 ∧ s.pixel r c = true ∧ s.spriteAt x y n r c = true) → t.reg vfIdx = 1) ∧
      (¬ (∃ r c, r < 32 ∧ c < 64 ∧ s.pixel r c = true ∧ s.spriteAt x y n r c = true) → t.reg vfIdx = 0) ∧
      AgreesOutside { fb := true, regs := [vfIdx] } s t

/-- R114, R134 (D12, notes/assumptions/12.md): `Dxyn` with `n >= 1` raises `OutOfBoundsAccess` when `I + n - 1`
passes 4095, even where the rows outside memory would be clipped; with `n = 0` it completes whatever `I`
is, draws nothing and clears `VF`. -/
def Obligations.DrwChecksAllRowsFirst : Prop :=
  ∀ (x y : RegIdx) (n : Nibble) (s : State),
    (1 ≤ n.toNat → s.i.toNat + n.toNat - 1 > 4095 →
      exec (.drw x y n) s = .fault (.outOfBoundsAccess s.i.toNat n.toNat)) ∧
    (∃ t, exec (.drw x y 0) s = .next t ∧ t.reg vfIdx = 0 ∧ AgreesOutside { regs := [vfIdx] } s t)

/-- R117, R113 (derived there; C12): drawing the same sprite again at the same coordinates restores every
pixel, and its `VF` is 1 exactly when some 1 bit of the sprite on the screen had met a clear pixel the
first time. -/
def Obligations.DrawingTwiceRestores : Prop :=
  ∀ (x y : RegIdx) (n : Nibble) (s t : State), exec (.drw x y n) s = .next t →
    t.reg x = s.reg x → t.reg y = s.reg y →
    ∃ u, exec (.drw x y n) t = .next u ∧
      (∀ r c, r < 32 → c < 64 → u.pixel r c = s.pixel r c) ∧
      (u.reg vfIdx = 1 ↔ ∃ r c, r < 32 ∧ c < 64 ∧ s.pixel r c = false ∧ s.spriteAt x y n r c = true) ∧
      (u.reg vfIdx = 0 ∨ u.reg vfIdx = 1)

/-- R112: a sprite whose origin is off the screen, `V[x] >= 64` or `V[y] >= 32`, draws nothing and gives
`VF` = 0: neither coordinate is reduced. -/
def Obligations.OffScreenOriginDrawsNothing : Prop :=
  ∀ (x y : RegIdx) (n : Nibble) (s : State), n = 0 ∨ s.i.toNat + n.toNat - 1 ≤ 4095 →
    (s.reg x).toNat ≥ 64 ∨ (s.reg y).toNat ≥ 32 →
    ∃ t, exec (.drw x y n) s = .next t ∧ t.reg vfIdx = 0 ∧ AgreesOutside { regs := [vfIdx] } s t

/-! ## Timers and keys -/

/-- R120 to R122: `Fx07` copies the delay timer to `V[x]`; `Fx15` and `Fx18` set the delay and the sound timer
to `V[x]`, which then fall by 1 per `TICK` and stay at 0, so that `sound_active` holds until `V[x]` `TICK`s have passed. No
instruction reads the sound timer back: with another value in it each does the same. -/
def Obligations.TimerAccess : Prop :=
  ∀ (x : RegIdx) (s : State),
    (decodeWord (0xF#4 ++ x ++ 0x07#8) = some (.ldDt x) ∧
      ∃ t, exec (.ldDt x) s = .next t ∧ t.reg x = s.dt ∧ AgreesOutside { regs := [x] } s t) ∧
    (decodeWord (0xF#4 ++ x ++ 0x15#8) = some (.stDt x) ∧
      ∃ t, exec (.stDt x) s = .next t ∧ t.dt = s.reg x ∧ AgreesOutside { dt := true } s t ∧
        ∀ n, (ticks n t).dt.toNat = (s.reg x).toNat - n) ∧
    (decodeWord (0xF#4 ++ x ++ 0x18#8) = some (.stSt x) ∧
      ∃ t, exec (.stSt x) s = .next t ∧ t.st = s.reg x ∧ AgreesOutside { st := true } s t ∧
        ∀ n, (ticks n t).st.toNat = (s.reg x).toNat - n ∧
          (soundActive (ticks n t) = true ↔ n < (s.reg x).toNat)) ∧
    (∀ (i : Instr) (b : Byte), (∀ z, i ≠ .stSt z) →
      (∀ t, exec i s = .next t → exec i (s.setSt b) = .next (t.setSt b)) ∧
      (∀ f, exec i s = .fault f → exec i (s.setSt b) = .fault f))

/-- R123, R124, and R126, R136 (D8, notes/assumptions/10.md) for a `V[x]` above 15: `Ex9E` skips when the key
that `V[x]` names is pressed, `ExA1` when it is released; neither changes the latch; a `V[x]` that names no
key raises `KeyIndexOutOfRange`. -/
def Obligations.KeySkips : Prop :=
  ∀ (x : RegIdx) (s : State),
    (∀ k : Key, (s.reg x).toNat = k.toNat →
      (∃ t, exec (.skp x) s = .next t ∧ AgreesOutside { pc := true } s t ∧
        t.pc = if s.key k = true then s.pc + 2 else s.pc) ∧
      (∃ t, exec (.sknp x) s = .next t ∧ AgreesOutside { pc := true } s t ∧
        t.pc = if s.key k = false then s.pc + 2 else s.pc)) ∧
    ((s.reg x).toNat > 15 →
      exec (.skp x) s = .fault (.keyIndexOutOfRange (s.reg x)) ∧
      exec (.sknp x) s = .fault (.keyIndexOutOfRange (s.reg x)))

/-- R125, with R61, R65 and R150: `Fx0A` writes only `WAIT`. From then on no sequence of `STEP`, `TICK` and `KEY_UP`
ends the wait or moves `PC` or a register, whatever keys are held, while each `TICK` still counts both timers
down; the next `KEY_DOWN(k)` writes `k` to `V[x]`,
ends the wait and leaves `PC` at the instruction after the `Fx0A`. -/
def Obligations.KeyWaitEndsOnlyAtKeyDownOrReset : Prop :=
  ∀ (x : RegIdx) (s : State),
    decodeWord (0xF#4 ++ x ++ 0x0A#8) = some (.ldKey x) ∧
    ∃ t, exec (.ldKey x) s = .next t ∧ t.wait = some x ∧ AgreesOutside { wait := true } s t ∧
      ∀ es : List Event, (∀ e ∈ es, keepsWaiting e = true) →
        ∃ u, runEvents es (.machine t) = .ok (.machine u, List.replicate es.length none) ∧
          u.wait = some x ∧ u.pc = s.pc ∧ u.v = s.v ∧
          u.dt.toNat = s.dt.toNat - es.count .tick ∧ u.st.toNat = s.st.toNat - es.count .tick ∧
          (∀ image : List Byte, image.length ≤ 3584 →
            ∃ r, applyEvent (.reset image) u = .next r ∧ r.wait = none) ∧
          ∀ k, (keyDownEvent k u).wait = none ∧ ((keyDownEvent k u).reg x).toNat = k.toNat ∧
            (keyDownEvent k u).key k = true ∧ (keyDownEvent k u).pc = s.pc

/-! ## The whole machine -/

/-- R24 (derived there): no instruction changes anything outside the "writes" cell of its row. -/
def Obligations.EveryInstructionKeepsItsFrame : Prop :=
  ∀ (i : Instr) (s t : State), exec i s = .next t → AgreesOutside (writeSet i s) s t

/-- R130, R134, R138 (D8 and D12, notes/assumptions/10.md and 12.md): an instruction raises exactly the fault
the table gives it, in exactly the listed cases, and completes in every other; none is refused. -/
def Obligations.FaultsExactlyInTheListedCases : Prop :=
  ∀ (i : Instr) (s : State),
    (∀ f, faultCause i s = some f → exec i s = .fault f) ∧
    (faultCause i s = none → ∃ t, exec i s = .next t)

/-- R11, R96 (D9, notes/assumptions/11.md, for the shifts of `VF` itself): only the seven listed instructions
write `VF` as a side effect, and they leave 0 or 1 in it, but for `8FyE`, which leaves 0 or 2. -/
def Obligations.OnlyFlagInstructionsWriteVF : Prop :=
  ∀ (i : Instr) (s t : State), exec i s = .next t →
    (writesFlag i = false → destIsVF i = false → t.reg vfIdx = s.reg vfIdx) ∧
    (writesFlag i = true → (∀ y, i ≠ .shl vfIdx y) → t.reg vfIdx = 0 ∨ t.reg vfIdx = 1) ∧
    (∀ y, i = .shl vfIdx y → t.reg vfIdx = 0 ∨ t.reg vfIdx = 2)

/-- R23: the invariant holds after reset. -/
def Obligations.ResetMeetsTheInvariant : Prop := StateInv State.reset

/-- R23, R13: every step keeps the invariant: `PC` stays at most 0x10FE, so it never wraps, and every occupied
stack slot holds a value in 2..4096. The part that memory stays canonical is the model's own
(notes/assumptions/22.md). -/
def Obligations.EveryStepKeepsTheInvariant : Prop :=
  ∀ s t : State, StateInv s → step s = .next t → StateInv t

/-- R23, R72, R140 (notes/assumptions/22.md for the part that memory stays canonical, which is the model's own;
D19, notes/assumptions/19.md, for a failed reset): the invariant holds of every machine the host can have: after any sequence of events, in
any order, faulted steps and failed resets among them, from any machine that meets it or from none. -/
def Obligations.EveryScheduleKeepsTheInvariant : Prop :=
  ∀ (es : List Event) (m m' : Holding) (fs : List (Option Fault)),
    (∀ s, m = .machine s → StateInv s) → runEvents es m = .ok (m', fs) → ∀ t, m' = .machine t → StateInv t

/-- R98 (D17, notes/assumptions/5.md, for the stream; that it goes on over a `RESET`, a failed one too, is the
model's choice, notes/assumptions/19.md): over any sequence of events, faults and failed resets among them,
the host's place in its entropy stream never goes back, and moves on by at most one for each `STEP`; so no
sample is taken twice. -/
def Obligations.EntropyStreamNeverGoesBack : Prop :=
  ∀ (es : List Event) (m m' : Holding) (fs : List (Option Fault)), runEvents es m = .ok (m', fs) →
    m.draws ≤ m'.draws ∧ m'.draws ≤ m.draws + es.count .step
end

