-- ==== Sys2Proof/Laws/Decode.lean ====
section
/-! SUPPORT. The fields of an assembled word, format by format, and the bytes of a word: what decoding
and encoding rest on (spec/30_encoding.md R46, R48). -/

namespace Sys2Proof

/-! ### Slices of a concatenation -/

/-- A slice that begins where the low part ends or above it is a slice of the high part. -/
theorem extract_above {a b : Nat} (p : BitVec a) (q : BitVec b) (k n : Nat) :
    (p ++ q).extractLsb' (b + k) n = p.extractLsb' k n := by
  apply BitVec.eq_of_getLsbD_eq
  intro j hj
  have h : ¬ b + k + j < b := by omega
  have e : b + k + j - b = k + j := by omega
  simp [BitVec.getLsbD_append, hj, h, e]

/-- A slice that ends where the low part ends or below it is a slice of the low part. -/
theorem extract_below {a b : Nat} (p : BitVec a) (q : BitVec b) (k n : Nat) (h : k + n ≤ b) :
    (p ++ q).extractLsb' k n = q.extractLsb' k n := by
  apply BitVec.eq_of_getLsbD_eq
  intro j hj
  have h : k + j < b := by omega
  simp [BitVec.getLsbD_append, hj, h]

/-- The slice of the whole width is the vector itself. -/
theorem extract_all {a : Nat} (p : BitVec a) : p.extractLsb' 0 a = p := by
  apply BitVec.eq_of_getLsbD_eq
  intro j hj
  simp [hj]

/-! ### Fields of the formats -/

@[simp] theorem fieldOp_formAddr (op : BitVec 4) (nnn : Addr12) : fieldOp (formAddr op nnn) = op :=
  (extract_above op nnn 0 4).trans (extract_all op)

@[simp] theorem fieldNNN_formAddr (op : BitVec 4) (nnn : Addr12) : fieldNNN (formAddr op nnn) = nnn :=
  (extract_below op nnn 0 12 (by omega)).trans (extract_all nnn)

@[simp] theorem fieldOp_formRegImm (op : BitVec 4) (x : RegIdx) (nn : Byte) :
    fieldOp (formRegImm op x nn) = op :=
  (extract_above (op ++ x) nn 4 4).trans ((extract_above op x 0 4).trans (extract_all op))

@[simp] theorem fieldX_formRegImm (op : BitVec 4) (x : RegIdx) (nn : Byte) :
    fieldX (formRegImm op x nn) = x :=
  (extract_above (op ++ x) nn 0 4).trans
    ((extract_below op x 0 4 (by omega)).trans (extract_all x))

@[simp] theorem fieldNN_formRegImm (op : BitVec 4) (x : RegIdx) (nn : Byte) :
    fieldNN (formRegImm op x nn) = nn :=
  (extract_below (op ++ x) nn 0 8 (by omega)).trans (extract_all nn)

@[simp] theorem fieldOp_formRegReg (op : BitVec 4) (x y : RegIdx) (n : Nibble) :
    fieldOp (formRegReg op x y n) = op :=
  (extract_above (op ++ x ++ y) n 8 4).trans
    ((extract_above (op ++ x) y 4 4).trans ((extract_above op x 0 4).trans (extract_all op)))

@[simp] theorem fieldX_formRegReg (op : BitVec 4) (x y : RegIdx) (n : Nibble) :
    fieldX (formRegReg op x y n) = x :=
  (extract_above (op ++ x ++ y) n 4 4).trans
    ((extract_above (op ++ x) y 0 4).trans
      ((extract_below op x 0 4 (by omega)).trans (extract_all x)))

@[simp] theorem fieldY_formRegReg (op : BitVec 4) (x y : RegIdx) (n : Nibble) :
    fieldY (formRegReg op x y n) = y :=
  (extract_above (op ++ x ++ y) n 0 4).trans
    ((extract_below (op ++ x) y 0 4 (by omega)).trans (extract_all y))

@[simp] theorem fieldN_formRegReg (op : BitVec 4) (x y : RegIdx) (n : Nibble) :
    fieldN (formRegReg op x y n) = n :=
  (extract_below (op ++ x ++ y) n 0 4 (by omega)).trans (extract_all n)

/-! ### A word from its parts -/

/-- A slice cut in two. -/
theorem extract_split {w : Nat} (v : BitVec w) (k m n : Nat) :
    v.extractLsb' k (m + n) = v.extractLsb' (k + n) m ++ v.extractLsb' k n := by
  apply BitVec.eq_of_getLsbD_eq
  intro j hj
  rw [BitVec.getLsbD_append]
  by_cases h : j < n
  · simp only [BitVec.getLsbD_extractLsb', hj, h, decide_true, Bool.true_and, if_true]
  · have h2 : j - n < m := by omega
    have e : k + n + (j - n) = k + j := by omega
    simp only [BitVec.getLsbD_extractLsb', hj, h, h2, e, decide_true, Bool.true_and, if_false]

/-- A vector is its high slice and its low slice. -/
theorem append_of_extract {a b : Nat} (w : BitVec (a + b)) :
    w.extractLsb' b a ++ w.extractLsb' 0 b = w := by
  have h := (extract_split w 0 a b).symm
  rw [Nat.zero_add] at h
  exact h.trans (extract_all w)

/-- Every word is the ADDR form of its fields. -/
theorem formAddr_fields (w : Word) : formAddr (fieldOp w) (fieldNNN w) = w :=
  append_of_extract (a := 4) (b := 12) w

/-- Every word is the REG_IMM form of its fields. -/
theorem formRegImm_fields (w : Word) : formRegImm (fieldOp w) (fieldX w) (fieldNN w) = w := by
  have h : fieldOp w ++ fieldX w = w.extractLsb' 8 (4 + 4) := (extract_split w 8 4 4).symm
  unfold formRegImm
  rw [h]
  exact append_of_extract (a := 8) (b := 8) w

/-- Every word is the REG_REG form of its fields. -/
theorem formRegReg_fields (w : Word) : formRegReg (fieldOp w) (fieldX w) (fieldY w) (fieldN w) = w := by
  have h : fieldY w ++ fieldN w = w.extractLsb' 0 (4 + 4) := (extract_split w 0 4 4).symm
  have h2 : formRegReg (fieldOp w) (fieldX w) (fieldY w) (fieldN w)
      = formRegImm (fieldOp w) (fieldX w) (fieldY w ++ fieldN w) := by
    apply BitVec.eq_of_toNat_eq
    simp only [formRegReg, formRegImm, BitVec.toNat_append, Nat.shiftLeft_or_distrib, ← Nat.shiftLeft_add,
      Nat.or_assoc]
  rw [h2, h]
  exact formRegImm_fields w

/-- A word is its two bytes, high byte first (R33). -/
@[simp] theorem wordOfBytes_bytes (w : Word) : wordOfBytes (highByte w) (lowByte w) = w :=
  append_of_extract (a := 8) (b := 8) w

/-- The high byte of a composed word (R33). -/
@[simp] theorem highByte_wordOfBytes (hi lo : Byte) : highByte (wordOfBytes hi lo) = hi :=
  (extract_above hi lo 0 8).trans (extract_all hi)

/-- The low byte of a composed word (R33). -/
@[simp] theorem lowByte_wordOfBytes (hi lo : Byte) : lowByte (wordOfBytes hi lo) = lo :=
  (extract_below hi lo 0 8 (by omega)).trans (extract_all lo)

end Sys2Proof
end

