-- ==== Sys2Proof/Laws/Display.lean ====
section
/-! SUPPORT. The pixel laws of the framebuffer and the loops of the draw, each loop in closed form. -/

namespace Sys2Proof.Machine

/-- Reading a pixel after one is inverted (R111: `FB[r][c] ^ 1`); outside nothing changes (R112). -/
theorem FrameBuffer.get_flip (fb : FrameBuffer) (r c r' c' : Nat) :
    FrameBuffer.get (FrameBuffer.flip fb r c) r' c' =
      (FrameBuffer.get fb r' c' ^^ decide (r' = r ∧ c' = c ∧ r < 32 ∧ c < 64)) := by
  unfold FrameBuffer.flip
  by_cases h : r < 32 ∧ c < 64
  · rw [dif_pos h]
    by_cases h' : r' < 32 ∧ c' < 64
    · simp only [FrameBuffer.get, dif_pos h']
      by_cases hr : r' = r
      · subst hr
        by_cases hc : c' = c
        · subst hc; simp [h.1, h.2]
        · have : c ≠ c' := fun e => hc e.symm
          simp [this, hc]
      · have : r ≠ r' := fun e => hr e.symm
        simp [this, hr]
    · simp only [FrameBuffer.get, dif_neg h']
      have : ¬ (r' = r ∧ c' = c ∧ r < 32 ∧ c < 64) := by rintro ⟨rfl, rfl, hh⟩; exact h' hh
      simp [this]
  · rw [dif_neg h]
    have : ¬ (r' = r ∧ c' = c ∧ r < 32 ∧ c < 64) := fun hh => h hh.2.2
    simp [this]

/-- A blank framebuffer has no set pixel. -/
@[simp] theorem FrameBuffer.get_blank (r c : Nat) : FrameBuffer.get FrameBuffer.blank r c = false := by
  unfold FrameBuffer.get FrameBuffer.blank
  split <;> simp

/-- One pixel of the draw: exclusive or, and a collision when a set pixel meets a 1 bit (R113). -/
theorem plot_get (g : Canvas) (r c : Nat) (bit : Bool) (r' c' : Nat) (h : r < 32 ∧ c < 64) :
    FrameBuffer.get (plot g r c bit).fb r' c' =
      (FrameBuffer.get g.fb r' c' ^^ (decide (r' = r ∧ c' = c) && bit)) := by
  unfold plot
  cases bit with
  | false => simp
  | true => simp [FrameBuffer.get_flip, h.1, h.2]

theorem plot_hit (g : Canvas) (r c : Nat) (bit : Bool) :
    (plot g r c bit).hit = (g.hit || (bit && FrameBuffer.get g.fb r c)) := by
  unfold plot
  cases bit <;> simp

/-- The inner loop over the columns `k, k + 1, ..., k + m - 1`, pixel by pixel: leaving it at the first
pixel outside drops exactly the pixels outside (R112). -/
theorem blitRow_get (r ox : Nat) (row : Byte) : ∀ (m k : Nat) (g : Canvas) (r' c' : Nat),
    FrameBuffer.get (blitRow r ox row (List.range' k m) g).fb r' c' =
      (FrameBuffer.get g.fb r' c' ^^
        (decide (r' = r ∧ r < 32 ∧ c' < 64 ∧ ox + k ≤ c' ∧ c' < ox + k + m) && spriteBit row (c' - ox)))
  | 0, k, g, r', c' => by
    have : ¬ (r' = r ∧ r < 32 ∧ c' < 64 ∧ ox + k ≤ c' ∧ c' < ox + k + 0) := by omega
    rw [decide_eq_false this, Bool.false_and, Bool.xor_false]
    rfl
  | m + 1, k, g, r', c' => by
    rw [List.range'_succ, blitRow]
    by_cases hout : r > 31 ∨ ox + k > 63
    · rw [if_pos hout]
      have : ¬ (r' = r ∧ r < 32 ∧ c' < 64 ∧ ox + k ≤ c' ∧ c' < ox + k + (m + 1)) := by omega
      simp only [this, decide_false, Bool.false_and, Bool.xor_false]
    · rw [if_neg hout, blitRow_get r ox row m (k + 1), plot_get _ _ _ _ _ _ (by omega)]
      by_cases hp : r' = r ∧ c' = ox + k
      · obtain ⟨rfl, rfl⟩ := hp
        have h1 : ¬ (r' = r' ∧ r' < 32 ∧ ox + k < 64 ∧ ox + (k + 1) ≤ ox + k ∧ ox + k < ox + (k + 1) + m) := by
          omega
        have h2 : r' = r' ∧ r' < 32 ∧ ox + k < 64 ∧ ox + k ≤ ox + k ∧ ox + k < ox + k + (m + 1) := by omega
        have h3 : ox + k - ox = k := by omega
        rw [decide_eq_false h1, decide_eq_true h2, decide_eq_true ⟨rfl, rfl⟩, h3]
        simp only [Bool.false_and, Bool.true_and, Bool.xor_false]
      · have h1 : (r' = r ∧ r < 32 ∧ c' < 64 ∧ ox + (k + 1) ≤ c' ∧ c' < ox + (k + 1) + m) ↔
            (r' = r ∧ r < 32 ∧ c' < 64 ∧ ox + k ≤ c' ∧ c' < ox + k + (m + 1)) := by omega
        rw [decide_eq_false hp, decide_eq_decide.2 h1, Bool.false_and, Bool.xor_false]

/-- The inner loop's collisions: some set pixel inside met a 1 bit (R113). -/
theorem blitRow_hit (r ox : Nat) (row : Byte) : ∀ (m k : Nat) (g : Canvas),
    (blitRow r ox row (List.range' k m) g).hit = true ↔
      g.hit = true ∨ ∃ c, r < 32 ∧ c < 64 ∧ ox + k ≤ c ∧ c < ox + k + m ∧
        FrameBuffer.get g.fb r c = true ∧ spriteBit row (c - ox) = true
  | 0, k, g => by
    constructor
    · intro h; exact .inl h
    · rintro (h | ⟨c, h⟩)
      · exact h
      · omega
  | m + 1, k, g => by
    rw [List.range'_succ, blitRow]
    by_cases hout : r > 31 ∨ ox + k > 63
    · rw [if_pos hout]
      constructor
      · intro h; exact .inl h
      · rintro (h | ⟨c, h⟩)
        · exact h
        · omega
    · rw [if_neg hout, blitRow_hit r ox row m (k + 1), plot_hit]
      have h3 : ox + k - ox = k := by omega
      constructor
      · rintro (h | ⟨c, h1, h2, h4, h5, h6, h7⟩)
        · rcases Bool.or_eq_true_iff.1 h with h | h
          · exact .inl h
          · obtain ⟨hb, hg⟩ := Bool.and_eq_true_iff.1 h
            exact .inr ⟨ox + k, by omega, by omega, by omega, by omega, hg, by rw [h3]; exact hb⟩
        · rw [plot_get _ _ _ _ _ _ (by omega)] at h6
          have hne : ¬ (r = r ∧ c = ox + k) := by omega
          rw [decide_eq_false hne, Bool.false_and, Bool.xor_false] at h6
          exact .inr ⟨c, h1, h2, by omega, by omega, h6, h7⟩
      · rintro (h | ⟨c, h1, h2, h4, h5, h6, h7⟩)
        · exact .inl (by rw [h]; rfl)
        · by_cases hc : c = ox + k
          · subst hc
            rw [h3] at h7
            exact .inl (by rw [h6, h7]; simp)
          · refine .inr ⟨c, h1, h2, by omega, by omega, ?_, h7⟩
            rw [plot_get _ _ _ _ _ _ (by omega)]
            have hne : ¬ (r = r ∧ c = ox + k) := by omega
            rw [decide_eq_false hne, Bool.false_and, Bool.xor_false]
            exact h6

/-- The bit that the rows put on the pixel `(r, c)`, the first row being screen row `oy` (R111). -/
def rowsBit (ox oy : Nat) (rows : List Byte) (r c : Nat) : Bool :=
  decide (oy ≤ r ∧ r < oy + rows.length ∧ ox ≤ c ∧ c < ox + 8) && spriteBit (rows.getD (r - oy) 0) (c - ox)

theorem rowsBit_cons (ox oy : Nat) (row : Byte) (rows : List Byte) (r c : Nat) :
    rowsBit ox oy (row :: rows) r c =
      if r = oy then decide (ox ≤ c ∧ c < ox + 8) && spriteBit row (c - ox)
      else rowsBit ox (oy + 1) rows r c := by
  unfold rowsBit
  by_cases h : r = oy
  · subst h
    simp
  · rw [if_neg h]
    by_cases h2 : oy ≤ r
    · have e : r - oy = (r - (oy + 1)) + 1 := by omega
      have h3 : (oy ≤ r ∧ r < oy + (row :: rows).length ∧ ox ≤ c ∧ c < ox + 8) ↔
          (oy + 1 ≤ r ∧ r < oy + 1 + rows.length ∧ ox ≤ c ∧ c < ox + 8) := by
        simp only [List.length_cons]; omega
      simp only [h3, e, List.getD_cons_succ]
    · have h3 : ¬ (oy ≤ r ∧ r < oy + (row :: rows).length ∧ ox ≤ c ∧ c < ox + 8) := by omega
      have h4 : ¬ (oy + 1 ≤ r ∧ r < oy + 1 + rows.length ∧ ox ≤ c ∧ c < ox + 8) := by omega
      simp only [h3, h4, decide_false, Bool.false_and]

/-- The outer loop, pixel by pixel (R111). -/
theorem blit_get (ox : Nat) : ∀ (rows : List Byte) (oy : Nat) (g : Canvas) (r c : Nat), r < 32 → c < 64 →
    FrameBuffer.get (blit ox oy rows g).fb r c = (FrameBuffer.get g.fb r c ^^ rowsBit ox oy rows r c)
  | [], oy, g, r, c, _, _ => by
    have h : ¬ (oy ≤ r ∧ r < oy + 0 ∧ ox ≤ c ∧ c < ox + 8) := by omega
    simp only [blit, rowsBit, List.length_nil, h, decide_false, Bool.false_and, Bool.xor_false]
  | row :: rows, oy, g, r, c, hr, hc => by
    rw [blit, blit_get ox rows (oy + 1) _ r c hr hc, List.range_eq_range', blitRow_get, rowsBit_cons]
    by_cases h : r = oy
    · subst h
      have h1 : ¬ (r + 1 ≤ r ∧ r < r + 1 + rows.length ∧ ox ≤ c ∧ c < ox + 8) := by omega
      have h2 : rowsBit ox (r + 1) rows r c = false := by
        simp only [rowsBit, h1, decide_false, Bool.false_and]
      have h3 : (r = r ∧ r < 32 ∧ c < 64 ∧ ox + 0 ≤ c ∧ c < ox + 0 + 8) ↔ (ox ≤ c ∧ c < ox + 8) := by omega
      rw [h2, decide_eq_decide.2 h3, if_pos rfl, Bool.xor_false]
    · have h1 : ¬ (r = oy ∧ oy < 32 ∧ c < 64 ∧ ox + 0 ≤ c ∧ c < ox + 0 + 8) := by omega
      rw [decide_eq_false h1, if_neg h, Bool.false_and, Bool.xor_false]

/-- The outer loop's collisions, accumulated over all rows (R113). -/
theorem blit_hit (ox : Nat) : ∀ (rows : List Byte) (oy : Nat) (g : Canvas),
    (blit ox oy rows g).hit = true ↔
      g.hit = true ∨ ∃ r c, r < 32 ∧ c < 64 ∧ FrameBuffer.get g.fb r c = true ∧ rowsBit ox oy rows r c = true
  | [], oy, g => by
    constructor
    · intro h; exact .inl h
    · rintro (h | ⟨r, c, -, -, -, h⟩)
      · exact h
      · simp only [rowsBit, List.length_nil, Bool.and_eq_true, decide_eq_true_eq] at h
        omega
  | row :: rows, oy, g => by
    rw [blit, blit_hit ox rows (oy + 1), List.range_eq_range', blitRow_hit]
    have other : ∀ r c, r ≠ oy → FrameBuffer.get (blitRow oy ox row (List.range' 0 8) g).fb r c =
        FrameBuffer.get g.fb r c := by
      intro r c h
      have h1 : ¬ (r = oy ∧ oy < 32 ∧ c < 64 ∧ ox + 0 ≤ c ∧ c < ox + 0 + 8) := by omega
      rw [blitRow_get]
      simp only [h1, decide_false, Bool.false_and, Bool.xor_false]
    have below : ∀ r c, rowsBit ox (oy + 1) rows r c = true → r ≠ oy := by
      intro r c h e
      simp only [rowsBit, Bool.and_eq_true, decide_eq_true_eq] at h
      omega
    constructor
    · rintro ((h | ⟨c, h1, h2, h3, h4, h5, h6⟩) | ⟨r, c, h1, h2, h3, h4⟩)
      · exact .inl h
      · refine .inr ⟨oy, c, h1, h2, h5, ?_⟩
        rw [rowsBit_cons, if_pos rfl, h6]
        simp only [Bool.and_true, decide_eq_true_eq]
        omega
      · have hne := below r c h4
        rw [other r c hne] at h3
        exact .inr ⟨r, c, h1, h2, h3, by rw [rowsBit_cons, if_neg hne]; exact h4⟩
    · rintro (h | ⟨r, c, h1, h2, h3, h4⟩)
      · exact .inl (.inl h)
      · rw [rowsBit_cons] at h4
        by_cases hr : r = oy
        · subst hr
          rw [if_pos rfl, Bool.and_eq_true_iff, decide_eq_true_eq] at h4
          exact .inl (.inr ⟨c, h1, h2, by omega, by omega, h3, h4.2⟩)
        · rw [if_neg hr] at h4
          exact .inr ⟨r, c, h1, h2, by rw [other r c hr]; exact h3, h4⟩

end Sys2Proof.Machine
end

