-- ==== Sys2Proof/Laws/Events.lean ====
section
/-! SUPPORT. What the host can have after an event and after a sequence of events: the inversion lemmas of
`deliver` and `runEvents`, so that no proof splits their branches again. -/

namespace Sys2Proof.Machine

@[simp] theorem Holding.draws_machine (s : State) : (Holding.machine s).draws = s.draws := rfl
@[simp] theorem Holding.draws_absent (d : Nat) (es : List Event) : (Holding.absent d es).draws = d := rfl
@[simp] theorem Holding.schedule_machine (s : State) : (Holding.machine s).schedule = s.schedule := rfl
@[simp] theorem Holding.schedule_absent (d : Nat) (es : List Event) : (Holding.absent d es).schedule = es := rfl
@[simp] theorem Holding.draws_discard (m : Holding) : m.discard.draws = m.draws := rfl
@[simp] theorem Holding.schedule_discard (m : Holding) : m.discard.schedule = m.schedule := rfl

/-- What a `RESET` that succeeds answers: the reset state with the image, the host's side as it was. -/
theorem loadImage_eq_next {image : List Byte} {s t : State} :
    loadImage image s = .next t ↔ imageWellFormed image = true ∧
      t = { State.reset with
        mem := Memory.writeBytes [] Config.progBase image, draws := s.draws, schedule := s.schedule } := by
  unfold loadImage
  split
  · rename_i h; simp [h, eq_comm]
  · rename_i h; simp [h, raise]

/-- A `RESET` that fails raises `ProgramTooLarge`, for an image that is too long. -/
theorem loadImage_eq_fault {image : List Byte} {s : State} {f : Fault} :
    loadImage image s = .fault f ↔ imageWellFormed image = false ∧ f = .programTooLarge image.length := by
  unfold loadImage
  split
  · rename_i h; simp [h]
  · rename_i h; simp [h, raise, eq_comm]

/-- The four things that delivering an event can do: a transition, a fault that leaves the machine, a failed
`RESET`, a `RESET` where there was no machine. -/
theorem deliver_cases {e : Event} {m m' : Holding} {f : Option Fault} (h : deliver e m = .ok (m', f)) :
    (∃ s t, m = .machine s ∧ applyEvent e s = .next t ∧ m' = .machine t ∧ f = none) ∨
    (∃ s g, m = .machine s ∧ applyEvent e s = .fault g ∧ (∀ len, g ≠ .programTooLarge len) ∧
      m' = m ∧ f = some g) ∨
    (∃ len, m' = m.discard ∧ f = some (.programTooLarge len) ∧
      ∀ s, m = .machine s → applyEvent e s = .fault (.programTooLarge len)) ∨
    (∃ image t, m = .absent m.draws m.schedule ∧ e = .reset image ∧ m' = .machine t ∧ f = none ∧
      loadImage image { State.reset with draws := m.draws, schedule := m.schedule } = .next t) := by
  cases m with
  | machine s =>
    simp only [deliver] at h
    split at h <;> cases h
    · exact .inl ⟨s, _, rfl, ‹_›, rfl, rfl⟩
    · exact .inr (.inr (.inl ⟨_, rfl, rfl, fun _ hs => by cases hs; assumption⟩))
    · exact .inr (.inl ⟨s, _, rfl, ‹_›, ‹_›, rfl, rfl⟩)
  | absent d es =>
    cases e with
    | reset image =>
      simp only [deliver] at h
      split at h <;> cases h
      · exact .inr (.inr (.inr ⟨image, _, rfl, rfl, rfl, rfl, ‹_›⟩))
      · obtain ⟨-, rfl⟩ := loadImage_eq_fault.1 ‹_›
        exact .inr (.inr (.inl ⟨_, rfl, rfl, nofun⟩))
    | step => cases h
    | tick => cases h
    | keyDown k => cases h
    | keyUp k => cases h

/-- A sequence of events is its first event and then the rest. -/
theorem runEvents_cons {e : Event} {es : List Event} {m m' : Holding} {fs : List (Option Fault)} :
    runEvents (e :: es) m = .ok (m', fs) ↔
      ∃ m₁ f fs', deliver e m = .ok (m₁, f) ∧ runEvents es m₁ = .ok (m', fs') ∧ fs = f :: fs' := by
  simp only [runEvents]
  constructor
  · intro h
    split at h
    · cases h
    · split at h
      · cases h
      · cases h; exact ⟨_, _, _, ‹_›, ‹_›, rfl⟩
  · rintro ⟨m₁, f, fs', h₁, h₂, rfl⟩
    simp only [h₁, h₂]

end Sys2Proof.Machine
end

