-- ==== Sys2Proof/Laws/Memory.lean ====
section
/-! SUPPORT. The laws of memory: read after write, and that every operation keeps the canonical form. -/

namespace Sys2Proof.Machine

/-! ### Cells -/

/-- A memory whose cells all stand above `a` reads the initial byte at `a`. -/
theorem Memory.read_below : ∀ (m : Memory) (lo a : Nat), Memory.wfFrom lo m = true → a < lo →
    m.read a = Memory.initial a
  | [], _, _, _, _ => rfl
  | (a', b') :: m, lo, a, h, hlt => by
    simp only [Memory.wfFrom, Bool.and_eq_true, decide_eq_true_eq] at h
    have hne : a ≠ a' := by omega
    rw [Memory.read, if_neg hne]
    exact Memory.read_below m (a' + 1) a h.2 (by omega)

/-- Canonical form from a higher address on is canonical form from a lower one. -/
theorem Memory.wfFrom_mono {m : Memory} {lo lo' : Nat} (h : Memory.wfFrom lo m = true) (hle : lo' ≤ lo) :
    Memory.wfFrom lo' m = true := by
  cases m with
  | nil => rfl
  | cons c m =>
    obtain ⟨a, b⟩ := c
    simp only [Memory.wfFrom, Bool.and_eq_true, decide_eq_true_eq] at h ⊢
    exact ⟨⟨⟨by omega, h.1.1.2⟩, h.1.2⟩, h.2⟩

/-- Read after write, in a canonical memory (R40): "returns the last byte written to that address". -/
theorem Memory.read_write : ∀ (m : Memory) (lo a a' : Nat) (b : Byte), Memory.wfFrom lo m = true →
    (m.write a b).read a' = if a' = a then b else m.read a'
  | [], _, a, a', b, _ => by
    simp only [Memory.write]
    split
    · rename_i hb
      split
      · rename_i ha; subst ha; simp [Memory.read, hb]
      · rfl
    · simp [Memory.read]
  | (c, d) :: m, lo, a, a', b, h => by
    have h' := h
    simp only [Memory.wfFrom, Bool.and_eq_true, decide_eq_true_eq] at h'
    have ih := Memory.read_write m (c + 1) a a' b h'.2
    simp only [Memory.write]
    by_cases h1 : a < c
    · simp only [if_pos h1]
      have hb : Memory.read ((c, d) :: m) a = Memory.initial a := by
        refine Memory.read_below ((c, d) :: m) c a ?_ h1
        simp only [Memory.wfFrom, Bool.and_eq_true, decide_eq_true_eq]
        exact ⟨⟨⟨Nat.le_refl c, h'.1.1.2⟩, h'.1.2⟩, h'.2⟩
      by_cases h2 : b = Memory.initial a
      · rw [if_pos h2]
        by_cases h3 : a' = a
        · rw [if_pos h3, h3, hb, h2]
        · rw [if_neg h3]
      · rw [if_neg h2]
        by_cases h3 : a' = a
        · simp [Memory.read, h3]
        · rw [Memory.read, if_neg h3]
    · simp only [if_neg h1]
      by_cases h2 : a = c
      · subst h2
        simp only [if_true]
        by_cases h3 : a' = a
        · subst h3
          by_cases h4 : b = Memory.initial a'
          · simp only [if_pos h4, if_true]
            rw [Memory.read_below m (a' + 1) a' h'.2 (by omega), h4]
          · simp [Memory.read, h4]
        · by_cases h4 : b = Memory.initial a
          · simp [Memory.read, h3, h4]
          · simp [Memory.read, h3, h4]
      · simp only [if_neg h2]
        by_cases h3 : a' = c
        · have : a' ≠ a := fun e => h2 (e ▸ h3)
          have h5 : c ≠ a := fun e => h2 e.symm
          simp [Memory.read, h3, h5]
        · simp only [Memory.read, if_neg h3]
          exact ih

/-- A write inside memory keeps the canonical form. -/
theorem Memory.wfFrom_write : ∀ (m : Memory) (lo a : Nat) (b : Byte), Memory.wfFrom lo m = true → lo ≤ a →
    a < 4096 → Memory.wfFrom lo (m.write a b) = true
  | [], lo, a, b, _, hlo, ha => by
    simp only [Memory.write]
    split
    · rfl
    · rename_i hb
      simp only [Memory.wfFrom, Bool.and_eq_true, decide_eq_true_eq]
      exact ⟨⟨⟨hlo, ha⟩, hb⟩, trivial⟩
  | (c, d) :: m, lo, a, b, h, hlo, ha => by
    have h' := h
    simp only [Memory.wfFrom, Bool.and_eq_true, decide_eq_true_eq] at h'
    obtain ⟨⟨⟨h1, h2⟩, h3⟩, h4⟩ := h'
    simp only [Memory.write]
    split
    · split
      · exact h
      · simp only [Memory.wfFrom, Bool.and_eq_true, decide_eq_true_eq]
        exact ⟨⟨⟨hlo, ha⟩, ‹_›⟩, ⟨⟨by omega, h2⟩, h3⟩, h4⟩
    · split
      · rename_i hac
        subst hac
        split
        · exact Memory.wfFrom_mono h4 (by omega)
        · simp only [Memory.wfFrom, Bool.and_eq_true, decide_eq_true_eq]
          exact ⟨⟨⟨hlo, ha⟩, ‹_›⟩, h4⟩
      · simp only [Memory.wfFrom, Bool.and_eq_true, decide_eq_true_eq]
        exact ⟨⟨⟨h1, h2⟩, h3⟩, Memory.wfFrom_write m (c + 1) a b h4 (by omega) ha⟩

theorem Memory.wf_write {m : Memory} (h : m.wf = true) {a : Nat} (ha : a < 4096) (b : Byte) :
    (m.write a b).wf = true :=
  Memory.wfFrom_write m 0 a b h (Nat.zero_le a) ha

/-! ### Runs of bytes -/

/-- Storing bytes inside memory keeps the canonical form (R37). -/
theorem Memory.wf_writeBytes (bs : List Byte) : ∀ (m : Memory) (a : Nat), m.wf = true →
    a + bs.length ≤ 4096 → (m.writeBytes a bs).wf = true := by
  induction bs with
  | nil => intro m a h _; exact h
  | cons b bs ih =>
    intro m a h hle
    simp only [List.length_cons] at hle
    exact ih _ _ (Memory.wf_write h (by omega) b) (by omega)

/-- Reading after storing bytes: address `a + j` gives byte `j`, every other what it gave (R37, R40). -/
theorem Memory.read_writeBytes (bs : List Byte) : ∀ (m : Memory) (a a' : Nat), m.wf = true →
    a + bs.length ≤ 4096 →
    (m.writeBytes a bs).read a' =
      if h : a ≤ a' ∧ a' < a + bs.length then bs[a' - a] else m.read a' := by
  induction bs with
  | nil => intro m a a' _ _; simp [Memory.writeBytes]
  | cons b bs ih =>
    intro m a a' h hle
    simp only [List.length_cons] at hle
    rw [Memory.writeBytes, ih _ _ _ (Memory.wf_write h (by omega) b) (by omega),
      Memory.read_write m 0 a a' b h]
    by_cases h1 : a + 1 ≤ a' ∧ a' < a + 1 + bs.length
    · have h2 : a ≤ a' ∧ a' < a + (b :: bs).length := by simp; omega
      rw [dif_pos h1, dif_pos h2]
      have e : a' - a = (a' - (a + 1)) + 1 := by omega
      simp [e]
    · rw [dif_neg h1]
      by_cases h2 : a' = a
      · have h3 : a ≤ a' ∧ a' < a + (b :: bs).length := by simp; omega
        rw [dif_pos h3, if_pos h2]
        simp [h2]
      · have h3 : ¬ (a ≤ a' ∧ a' < a + (b :: bs).length) := by simp; omega
        rw [dif_neg h3, if_neg h2]

/-- The memory of the state after reset is canonical. -/
theorem State.reset_mem_wf : State.reset.mem.wf = true := rfl

/-- The font ends at 79: from 80 on memory is initially 0 (R32). -/
theorem Memory.initial_above {a : Nat} (h : 80 ≤ a) : Memory.initial a = 0 := by
  have hl : font.length = 80 := by decide
  simp [Memory.initial, List.getD, List.getElem?_eq_none (by omega : font.length ≤ a)]

end Sys2Proof.Machine
end

