-- ==== Sys2Proof/Laws/State.lean ====
section
/-! SUPPORT. One lemma per field per update, and what a register, a key and a pixel read after one, so
that no proof unfolds a record update. -/

namespace Sys2Proof.Machine

/-! ### setReg -/

@[simp] theorem State.setReg_i (s : State) (x : RegIdx) (b : Byte) : (s.setReg x b).i = s.i := rfl
@[simp] theorem State.setReg_pc (s : State) (x : RegIdx) (b : Byte) : (s.setReg x b).pc = s.pc := rfl
@[simp] theorem State.setReg_mem (s : State) (x : RegIdx) (b : Byte) : (s.setReg x b).mem = s.mem := rfl
@[simp] theorem State.setReg_stack (s : State) (x : RegIdx) (b : Byte) : (s.setReg x b).stack = s.stack := rfl
@[simp] theorem State.setReg_sp (s : State) (x : RegIdx) (b : Byte) : (s.setReg x b).sp = s.sp := rfl
@[simp] theorem State.setReg_fb (s : State) (x : RegIdx) (b : Byte) : (s.setReg x b).fb = s.fb := rfl
@[simp] theorem State.setReg_dt (s : State) (x : RegIdx) (b : Byte) : (s.setReg x b).dt = s.dt := rfl
@[simp] theorem State.setReg_st (s : State) (x : RegIdx) (b : Byte) : (s.setReg x b).st = s.st := rfl
@[simp] theorem State.setReg_keys (s : State) (x : RegIdx) (b : Byte) : (s.setReg x b).keys = s.keys := rfl
@[simp] theorem State.setReg_wait (s : State) (x : RegIdx) (b : Byte) : (s.setReg x b).wait = s.wait := rfl
@[simp] theorem State.setReg_draws (s : State) (x : RegIdx) (b : Byte) : (s.setReg x b).draws = s.draws := rfl
@[simp] theorem State.setReg_schedule (s : State) (x : RegIdx) (b : Byte) : (s.setReg x b).schedule = s.schedule := rfl
@[simp] theorem State.setReg_key (s : State) (x : RegIdx) (b : Byte) (j : Key) : (s.setReg x b).key j = s.key j := rfl
@[simp] theorem State.setReg_pixel (s : State) (x : RegIdx) (b : Byte) (r c : Nat) : (s.setReg x b).pixel r c = s.pixel r c := rfl

/-! ### setVF -/

@[simp] theorem State.setVF_i (s : State) (f : Bool) : (s.setVF f).i = s.i := rfl
@[simp] theorem State.setVF_pc (s : State) (f : Bool) : (s.setVF f).pc = s.pc := rfl
@[simp] theorem State.setVF_mem (s : State) (f : Bool) : (s.setVF f).mem = s.mem := rfl
@[simp] theorem State.setVF_stack (s : State) (f : Bool) : (s.setVF f).stack = s.stack := rfl
@[simp] theorem State.setVF_sp (s : State) (f : Bool) : (s.setVF f).sp = s.sp := rfl
@[simp] theorem State.setVF_fb (s : State) (f : Bool) : (s.setVF f).fb = s.fb := rfl
@[simp] theorem State.setVF_dt (s : State) (f : Bool) : (s.setVF f).dt = s.dt := rfl
@[simp] theorem State.setVF_st (s : State) (f : Bool) : (s.setVF f).st = s.st := rfl
@[simp] theorem State.setVF_keys (s : State) (f : Bool) : (s.setVF f).keys = s.keys := rfl
@[simp] theorem State.setVF_wait (s : State) (f : Bool) : (s.setVF f).wait = s.wait := rfl
@[simp] theorem State.setVF_draws (s : State) (f : Bool) : (s.setVF f).draws = s.draws := rfl
@[simp] theorem State.setVF_schedule (s : State) (f : Bool) : (s.setVF f).schedule = s.schedule := rfl
@[simp] theorem State.setVF_key (s : State) (f : Bool) (j : Key) : (s.setVF f).key j = s.key j := rfl
@[simp] theorem State.setVF_pixel (s : State) (f : Bool) (r c : Nat) : (s.setVF f).pixel r c = s.pixel r c := rfl

/-! ### setI -/

@[simp] theorem State.setI_v (s : State) (w : Word) : (s.setI w).v = s.v := rfl
@[simp] theorem State.setI_i (s : State) (w : Word) : (s.setI w).i = w := rfl
@[simp] theorem State.setI_pc (s : State) (w : Word) : (s.setI w).pc = s.pc := rfl
@[simp] theorem State.setI_mem (s : State) (w : Word) : (s.setI w).mem = s.mem := rfl
@[simp] theorem State.setI_stack (s : State) (w : Word) : (s.setI w).stack = s.stack := rfl
@[simp] theorem State.setI_sp (s : State) (w : Word) : (s.setI w).sp = s.sp := rfl
@[simp] theorem State.setI_fb (s : State) (w : Word) : (s.setI w).fb = s.fb := rfl
@[simp] theorem State.setI_dt (s : State) (w : Word) : (s.setI w).dt = s.dt := rfl
@[simp] theorem State.setI_st (s : State) (w : Word) : (s.setI w).st = s.st := rfl
@[simp] theorem State.setI_keys (s : State) (w : Word) : (s.setI w).keys = s.keys := rfl
@[simp] theorem State.setI_wait (s : State) (w : Word) : (s.setI w).wait = s.wait := rfl
@[simp] theorem State.setI_draws (s : State) (w : Word) : (s.setI w).draws = s.draws := rfl
@[simp] theorem State.setI_schedule (s : State) (w : Word) : (s.setI w).schedule = s.schedule := rfl
@[simp] theorem State.setI_reg (s : State) (w : Word) (y : RegIdx) : (s.setI w).reg y = s.reg y := rfl
@[simp] theorem State.setI_key (s : State) (w : Word) (j : Key) : (s.setI w).key j = s.key j := rfl
@[simp] theorem State.setI_pixel (s : State) (w : Word) (r c : Nat) : (s.setI w).pixel r c = s.pixel r c := rfl

/-! ### setPc -/

@[simp] theorem State.setPc_v (s : State) (w : Word) : (s.setPc w).v = s.v := rfl
@[simp] theorem State.setPc_i (s : State) (w : Word) : (s.setPc w).i = s.i := rfl
@[simp] theorem State.setPc_pc (s : State) (w : Word) : (s.setPc w).pc = w := rfl
@[simp] theorem State.setPc_mem (s : State) (w : Word) : (s.setPc w).mem = s.mem := rfl
@[simp] theorem State.setPc_stack (s : State) (w : Word) : (s.setPc w).stack = s.stack := rfl
@[simp] theorem State.setPc_sp (s : State) (w : Word) : (s.setPc w).sp = s.sp := rfl
@[simp] theorem State.setPc_fb (s : State) (w : Word) : (s.setPc w).fb = s.fb := rfl
@[simp] theorem State.setPc_dt (s : State) (w : Word) : (s.setPc w).dt = s.dt := rfl
@[simp] theorem State.setPc_st (s : State) (w : Word) : (s.setPc w).st = s.st := rfl
@[simp] theorem State.setPc_keys (s : State) (w : Word) : (s.setPc w).keys = s.keys := rfl
@[simp] theorem State.setPc_wait (s : State) (w : Word) : (s.setPc w).wait = s.wait := rfl
@[simp] theorem State.setPc_draws (s : State) (w : Word) : (s.setPc w).draws = s.draws := rfl
@[simp] theorem State.setPc_schedule (s : State) (w : Word) : (s.setPc w).schedule = s.schedule := rfl
@[simp] theorem State.setPc_reg (s : State) (w : Word) (y : RegIdx) : (s.setPc w).reg y = s.reg y := rfl
@[simp] theorem State.setPc_key (s : State) (w : Word) (j : Key) : (s.setPc w).key j = s.key j := rfl
@[simp] theorem State.setPc_pixel (s : State) (w : Word) (r c : Nat) : (s.setPc w).pixel r c = s.pixel r c := rfl

/-! ### advance -/

@[simp] theorem State.advance_v (s : State) : (s.advance).v = s.v := rfl
@[simp] theorem State.advance_i (s : State) : (s.advance).i = s.i := rfl
@[simp] theorem State.advance_pc (s : State) : (s.advance).pc = s.pc + 2 := rfl
@[simp] theorem State.advance_mem (s : State) : (s.advance).mem = s.mem := rfl
@[simp] theorem State.advance_stack (s : State) : (s.advance).stack = s.stack := rfl
@[simp] theorem State.advance_sp (s : State) : (s.advance).sp = s.sp := rfl
@[simp] theorem State.advance_fb (s : State) : (s.advance).fb = s.fb := rfl
@[simp] theorem State.advance_dt (s : State) : (s.advance).dt = s.dt := rfl
@[simp] theorem State.advance_st (s : State) : (s.advance).st = s.st := rfl
@[simp] theorem State.advance_keys (s : State) : (s.advance).keys = s.keys := rfl
@[simp] theorem State.advance_wait (s : State) : (s.advance).wait = s.wait := rfl
@[simp] theorem State.advance_draws (s : State) : (s.advance).draws = s.draws := rfl
@[simp] theorem State.advance_schedule (s : State) : (s.advance).schedule = s.schedule := rfl
@[simp] theorem State.advance_reg (s : State) (y : RegIdx) : (s.advance).reg y = s.reg y := rfl
@[simp] theorem State.advance_key (s : State) (j : Key) : (s.advance).key j = s.key j := rfl
@[simp] theorem State.advance_pixel (s : State) (r c : Nat) : (s.advance).pixel r c = s.pixel r c := rfl

/-! ### setDt -/

@[simp] theorem State.setDt_v (s : State) (b : Byte) : (s.setDt b).v = s.v := rfl
@[simp] theorem State.setDt_i (s : State) (b : Byte) : (s.setDt b).i = s.i := rfl
@[simp] theorem State.setDt_pc (s : State) (b : Byte) : (s.setDt b).pc = s.pc := rfl
@[simp] theorem State.setDt_mem (s : State) (b : Byte) : (s.setDt b).mem = s.mem := rfl
@[simp] theorem State.setDt_stack (s : State) (b : Byte) : (s.setDt b).stack = s.stack := rfl
@[simp] theorem State.setDt_sp (s : State) (b : Byte) : (s.setDt b).sp = s.sp := rfl
@[simp] theorem State.setDt_fb (s : State) (b : Byte) : (s.setDt b).fb = s.fb := rfl
@[simp] theorem State.setDt_dt (s : State) (b : Byte) : (s.setDt b).dt = b := rfl
@[simp] theorem State.setDt_st (s : State) (b : Byte) : (s.setDt b).st = s.st := rfl
@[simp] theorem State.setDt_keys (s : State) (b : Byte) : (s.setDt b).keys = s.keys := rfl
@[simp] theorem State.setDt_wait (s : State) (b : Byte) : (s.setDt b).wait = s.wait := rfl
@[simp] theorem State.setDt_draws (s : State) (b : Byte) : (s.setDt b).draws = s.draws := rfl
@[simp] theorem State.setDt_schedule (s : State) (b : Byte) : (s.setDt b).schedule = s.schedule := rfl
@[simp] theorem State.setDt_reg (s : State) (b : Byte) (y : RegIdx) : (s.setDt b).reg y = s.reg y := rfl
@[simp] theorem State.setDt_key (s : State) (b : Byte) (j : Key) : (s.setDt b).key j = s.key j := rfl
@[simp] theorem State.setDt_pixel (s : State) (b : Byte) (r c : Nat) : (s.setDt b).pixel r c = s.pixel r c := rfl

/-! ### setSt -/

@[simp] theorem State.setSt_v (s : State) (b : Byte) : (s.setSt b).v = s.v := rfl
@[simp] theorem State.setSt_i (s : State) (b : Byte) : (s.setSt b).i = s.i := rfl
@[simp] theorem State.setSt_pc (s : State) (b : Byte) : (s.setSt b).pc = s.pc := rfl
@[simp] theorem State.setSt_mem (s : State) (b : Byte) : (s.setSt b).mem = s.mem := rfl
@[simp] theorem State.setSt_stack (s : State) (b : Byte) : (s.setSt b).stack = s.stack := rfl
@[simp] theorem State.setSt_sp (s : State) (b : Byte) : (s.setSt b).sp = s.sp := rfl
@[simp] theorem State.setSt_fb (s : State) (b : Byte) : (s.setSt b).fb = s.fb := rfl
@[simp] theorem State.setSt_dt (s : State) (b : Byte) : (s.setSt b).dt = s.dt := rfl
@[simp] theorem State.setSt_st (s : State) (b : Byte) : (s.setSt b).st = b := rfl
@[simp] theorem State.setSt_keys (s : State) (b : Byte) : (s.setSt b).keys = s.keys := rfl
@[simp] theorem State.setSt_wait (s : State) (b : Byte) : (s.setSt b).wait = s.wait := rfl
@[simp] theorem State.setSt_draws (s : State) (b : Byte) : (s.setSt b).draws = s.draws := rfl
@[simp] theorem State.setSt_schedule (s : State) (b : Byte) : (s.setSt b).schedule = s.schedule := rfl
@[simp] theorem State.setSt_reg (s : State) (b : Byte) (y : RegIdx) : (s.setSt b).reg y = s.reg y := rfl
@[simp] theorem State.setSt_key (s : State) (b : Byte) (j : Key) : (s.setSt b).key j = s.key j := rfl
@[simp] theorem State.setSt_pixel (s : State) (b : Byte) (r c : Nat) : (s.setSt b).pixel r c = s.pixel r c := rfl

/-! ### setWait -/

@[simp] theorem State.setWait_v (s : State) (w : Option RegIdx) : (s.setWait w).v = s.v := rfl
@[simp] theorem State.setWait_i (s : State) (w : Option RegIdx) : (s.setWait w).i = s.i := rfl
@[simp] theorem State.setWait_pc (s : State) (w : Option RegIdx) : (s.setWait w).pc = s.pc := rfl
@[simp] theorem State.setWait_mem (s : State) (w : Option RegIdx) : (s.setWait w).mem = s.mem := rfl
@[simp] theorem State.setWait_stack (s : State) (w : Option RegIdx) : (s.setWait w).stack = s.stack := rfl
@[simp] theorem State.setWait_sp (s : State) (w : Option RegIdx) : (s.setWait w).sp = s.sp := rfl
@[simp] theorem State.setWait_fb (s : State) (w : Option RegIdx) : (s.setWait w).fb = s.fb := rfl
@[simp] theorem State.setWait_dt (s : State) (w : Option RegIdx) : (s.setWait w).dt = s.dt := rfl
@[simp] theorem State.setWait_st (s : State) (w : Option RegIdx) : (s.setWait w).st = s.st := rfl
@[simp] theorem State.setWait_keys (s : State) (w : Option RegIdx) : (s.setWait w).keys = s.keys := rfl
@[simp] theorem State.setWait_wait (s : State) (w : Option RegIdx) : (s.setWait w).wait = w := rfl
@[simp] theorem State.setWait_draws (s : State) (w : Option RegIdx) : (s.setWait w).draws = s.draws := rfl
@[simp] theorem State.setWait_schedule (s : State) (w : Option RegIdx) : (s.setWait w).schedule = s.schedule := rfl
@[simp] theorem State.setWait_reg (s : State) (w : Option RegIdx) (y : RegIdx) : (s.setWait w).reg y = s.reg y := rfl
@[simp] theorem State.setWait_key (s : State) (w : Option RegIdx) (j : Key) : (s.setWait w).key j = s.key j := rfl
@[simp] theorem State.setWait_pixel (s : State) (w : Option RegIdx) (r c : Nat) : (s.setWait w).pixel r c = s.pixel r c := rfl

/-! ### setKey -/

@[simp] theorem State.setKey_v (s : State) (k : Key) (d : Bool) : (s.setKey k d).v = s.v := rfl
@[simp] theorem State.setKey_i (s : State) (k : Key) (d : Bool) : (s.setKey k d).i = s.i := rfl
@[simp] theorem State.setKey_pc (s : State) (k : Key) (d : Bool) : (s.setKey k d).pc = s.pc := rfl
@[simp] theorem State.setKey_mem (s : State) (k : Key) (d : Bool) : (s.setKey k d).mem = s.mem := rfl
@[simp] theorem State.setKey_stack (s : State) (k : Key) (d : Bool) : (s.setKey k d).stack = s.stack := rfl
@[simp] theorem State.setKey_sp (s : State) (k : Key) (d : Bool) : (s.setKey k d).sp = s.sp := rfl
@[simp] theorem State.setKey_fb (s : State) (k : Key) (d : Bool) : (s.setKey k d).fb = s.fb := rfl
@[simp] theorem State.setKey_dt (s : State) (k : Key) (d : Bool) : (s.setKey k d).dt = s.dt := rfl
@[simp] theorem State.setKey_st (s : State) (k : Key) (d : Bool) : (s.setKey k d).st = s.st := rfl
@[simp] theorem State.setKey_wait (s : State) (k : Key) (d : Bool) : (s.setKey k d).wait = s.wait := rfl
@[simp] theorem State.setKey_draws (s : State) (k : Key) (d : Bool) : (s.setKey k d).draws = s.draws := rfl
@[simp] theorem State.setKey_schedule (s : State) (k : Key) (d : Bool) : (s.setKey k d).schedule = s.schedule := rfl
@[simp] theorem State.setKey_reg (s : State) (k : Key) (d : Bool) (y : RegIdx) : (s.setKey k d).reg y = s.reg y := rfl
@[simp] theorem State.setKey_pixel (s : State) (k : Key) (d : Bool) (r c : Nat) : (s.setKey k d).pixel r c = s.pixel r c := rfl

/-! ### popEvent -/

@[simp] theorem State.popEvent_v (s : State) : (s.popEvent).v = s.v := rfl
@[simp] theorem State.popEvent_i (s : State) : (s.popEvent).i = s.i := rfl
@[simp] theorem State.popEvent_pc (s : State) : (s.popEvent).pc = s.pc := rfl
@[simp] theorem State.popEvent_mem (s : State) : (s.popEvent).mem = s.mem := rfl
@[simp] theorem State.popEvent_stack (s : State) : (s.popEvent).stack = s.stack := rfl
@[simp] theorem State.popEvent_sp (s : State) : (s.popEvent).sp = s.sp := rfl
@[simp] theorem State.popEvent_fb (s : State) : (s.popEvent).fb = s.fb := rfl
@[simp] theorem State.popEvent_dt (s : State) : (s.popEvent).dt = s.dt := rfl
@[simp] theorem State.popEvent_st (s : State) : (s.popEvent).st = s.st := rfl
@[simp] theorem State.popEvent_keys (s : State) : (s.popEvent).keys = s.keys := rfl
@[simp] theorem State.popEvent_wait (s : State) : (s.popEvent).wait = s.wait := rfl
@[simp] theorem State.popEvent_draws (s : State) : (s.popEvent).draws = s.draws := rfl
@[simp] theorem State.popEvent_schedule (s : State) : (s.popEvent).schedule = s.schedule.tail := rfl
@[simp] theorem State.popEvent_reg (s : State) (y : RegIdx) : (s.popEvent).reg y = s.reg y := rfl
@[simp] theorem State.popEvent_key (s : State) (j : Key) : (s.popEvent).key j = s.key j := rfl
@[simp] theorem State.popEvent_pixel (s : State) (r c : Nat) : (s.popEvent).pixel r c = s.pixel r c := rfl

/-! ### Registers and keys -/

/-- Reading a register after a write to one (R10). -/
theorem State.reg_setReg (s : State) (x y : RegIdx) (b : Byte) :
    (s.setReg x b).reg y = if y = x then b else s.reg y := by
  by_cases h : y = x
  · subst h; simp [State.reg, State.setReg]
  · have : x.toNat ≠ y.toNat := fun e => h (BitVec.eq_of_toNat_eq e.symm)
    simp [State.reg, State.setReg, this, h]

@[simp] theorem State.reg_setReg_self (s : State) (x : RegIdx) (b : Byte) : (s.setReg x b).reg x = b := by
  simp [State.reg_setReg]

theorem State.reg_setReg_ne (s : State) {x y : RegIdx} (b : Byte) (h : y ≠ x) :
    (s.setReg x b).reg y = s.reg y := by
  simp [State.reg_setReg, h]

/-- `VF` after a flag write is 0 or 1 (R11). -/
@[simp] theorem State.reg_setVF_self (s : State) (f : Bool) :
    (s.setVF f).reg vfIdx = if f then 1 else 0 := by
  simp [State.setVF]

theorem State.reg_setVF_ne (s : State) {y : RegIdx} (f : Bool) (h : y ≠ vfIdx) :
    (s.setVF f).reg y = s.reg y :=
  State.reg_setReg_ne s _ h

/-- Reading a key flag after a write to one (R18). -/
theorem State.key_setKey (s : State) (k j : Key) (d : Bool) :
    (s.setKey k d).key j = if j = k then d else s.key j := by
  by_cases h : j = k
  · subst h; simp [State.key, State.setKey]
  · have : k.toNat ≠ j.toNat := fun e => h (BitVec.eq_of_toNat_eq e.symm)
    simp [State.key, State.setKey, this, h]

/-- Two states whose registers read alike have the same register file. -/
theorem State.v_ext {s t : State} (h : ∀ x, t.reg x = s.reg x) : t.v = s.v := by
  apply Vector.ext
  intro k hk
  have := h (BitVec.ofNat 4 k)
  have e : (BitVec.ofNat 4 k).toNat = k := by simp; omega
  simpa [State.reg, e] using this

/-! ### A run of registers -/

/-- Writing bytes to registers from `k` on: register `k + j` gets byte `j`, every other keeps its value. -/
theorem State.reg_setRegsFrom (bs : List Byte) : ∀ (s : State) (k : Nat) (y : RegIdx), k + bs.length ≤ 16 →
    (s.setRegsFrom k bs).reg y =
      if h : k ≤ y.toNat ∧ y.toNat < k + bs.length then bs[y.toNat - k] else s.reg y := by
  induction bs with
  | nil => intro s k y _; simp [State.setRegsFrom]
  | cons b bs ih =>
    intro s k y hk
    simp only [List.length_cons] at hk
    have hk16 : k < 16 := by omega
    rw [State.setRegsFrom, dif_pos hk16, ih _ _ _ (by omega)]
    by_cases h1 : k + 1 ≤ y.toNat ∧ y.toNat < k + 1 + bs.length
    · have h2 : k ≤ y.toNat ∧ y.toNat < k + (b :: bs).length := by simp; omega
      rw [dif_pos h1, dif_pos h2]
      have e : y.toNat - k = (y.toNat - (k + 1)) + 1 := by omega
      simp [e]
    · rw [dif_neg h1]
      by_cases h2 : y.toNat = k
      · have h3 : k ≤ y.toNat ∧ y.toNat < k + (b :: bs).length := by simp; omega
        rw [dif_pos h3]
        simp [State.reg, h2]
      · have h3 : ¬ (k ≤ y.toNat ∧ y.toNat < k + (b :: bs).length) := by simp; omega
        rw [dif_neg h3]
        have : k ≠ y.toNat := fun e => h2 e.symm
        simp [State.reg, this]

/-- Writing a run of registers changes the register file only. -/
theorem State.setRegsFrom_eq (bs : List Byte) : ∀ (s : State) (k : Nat),
    s.setRegsFrom k bs = { s with v := (s.setRegsFrom k bs).v } := by
  induction bs with
  | nil => intro s k; rfl
  | cons b bs ih =>
    intro s k
    rw [State.setRegsFrom]
    split
    · rw [ih]
    · rfl

@[simp] theorem State.setRegsFrom_i (s : State) (k : Nat) (bs : List Byte) : (s.setRegsFrom k bs).i = s.i := by
  rw [State.setRegsFrom_eq]
@[simp] theorem State.setRegsFrom_pc (s : State) (k : Nat) (bs : List Byte) : (s.setRegsFrom k bs).pc = s.pc := by
  rw [State.setRegsFrom_eq]
@[simp] theorem State.setRegsFrom_mem (s : State) (k : Nat) (bs : List Byte) : (s.setRegsFrom k bs).mem = s.mem := by
  rw [State.setRegsFrom_eq]
@[simp] theorem State.setRegsFrom_stack (s : State) (k : Nat) (bs : List Byte) : (s.setRegsFrom k bs).stack = s.stack := by
  rw [State.setRegsFrom_eq]
@[simp] theorem State.setRegsFrom_sp (s : State) (k : Nat) (bs : List Byte) : (s.setRegsFrom k bs).sp = s.sp := by
  rw [State.setRegsFrom_eq]
@[simp] theorem State.setRegsFrom_fb (s : State) (k : Nat) (bs : List Byte) : (s.setRegsFrom k bs).fb = s.fb := by
  rw [State.setRegsFrom_eq]
@[simp] theorem State.setRegsFrom_dt (s : State) (k : Nat) (bs : List Byte) : (s.setRegsFrom k bs).dt = s.dt := by
  rw [State.setRegsFrom_eq]
@[simp] theorem State.setRegsFrom_st (s : State) (k : Nat) (bs : List Byte) : (s.setRegsFrom k bs).st = s.st := by
  rw [State.setRegsFrom_eq]
@[simp] theorem State.setRegsFrom_keys (s : State) (k : Nat) (bs : List Byte) : (s.setRegsFrom k bs).keys = s.keys := by
  rw [State.setRegsFrom_eq]
@[simp] theorem State.setRegsFrom_wait (s : State) (k : Nat) (bs : List Byte) : (s.setRegsFrom k bs).wait = s.wait := by
  rw [State.setRegsFrom_eq]
@[simp] theorem State.setRegsFrom_draws (s : State) (k : Nat) (bs : List Byte) : (s.setRegsFrom k bs).draws = s.draws := by
  rw [State.setRegsFrom_eq]
@[simp] theorem State.setRegsFrom_schedule (s : State) (k : Nat) (bs : List Byte) : (s.setRegsFrom k bs).schedule = s.schedule := by
  rw [State.setRegsFrom_eq]

end Sys2Proof.Machine
end

