-- ==== Sys2Proof/Laws/Ops.lean ====
section
/-! SUPPORT. One lemma per shared operation: everything it can do. -/

namespace Sys2Proof.Machine

/-! ### The bounds check and memory -/

/-- The bounds check as an inequality (R36, R37). -/
theorem inBounds_iff (a n : Nat) : inBounds a n = true ↔ n = 0 ∨ a + n ≤ 4096 := by
  simp [inBounds]

/-- `MemRead` answers bytes exactly when the range is inside, and then byte `k` is that of `addr + k`
(R36). -/
theorem State.memRead_eq_some {s : State} {a n : Nat} {bytes : List Byte} :
    s.memRead a n = some bytes ↔
      (n = 0 ∨ a + n ≤ 4096) ∧ bytes = (List.range n).map fun k => s.mem.read (a + k) := by
  unfold State.memRead
  by_cases h : inBounds a n = true
  · rw [if_pos h, Option.some.injEq, ← inBounds_iff]
    exact ⟨fun e => ⟨h, e.symm⟩, fun e => e.2.symm⟩
  · rw [if_neg h, ← inBounds_iff]
    exact ⟨fun e => (Option.some_ne_none _ e.symm).elim, fun e => (h e.1).elim⟩

theorem State.memRead_eq_none {s : State} {a n : Nat} :
    s.memRead a n = none ↔ ¬ (n = 0 ∨ a + n ≤ 4096) := by
  unfold State.memRead
  rw [← inBounds_iff]
  split <;> simp_all

/-- `MemWrite` answers a state exactly when the range is inside, and then only memory differs (R37). -/
theorem State.memWrite_eq_some {s t : State} {a : Nat} {bytes : List Byte} :
    s.memWrite a bytes = some t ↔
      (bytes.length = 0 ∨ a + bytes.length ≤ 4096) ∧ t = { s with mem := s.mem.writeBytes a bytes } := by
  unfold State.memWrite
  by_cases h : inBounds a bytes.length = true
  · rw [if_pos h, Option.some.injEq, ← inBounds_iff]
    exact ⟨fun e => ⟨h, e.symm⟩, fun e => e.2.symm⟩
  · rw [if_neg h, ← inBounds_iff]
    exact ⟨fun e => (Option.some_ne_none _ e.symm).elim, fun e => (h e.1).elim⟩

theorem State.memWrite_eq_none {s : State} {a : Nat} {bytes : List Byte} :
    s.memWrite a bytes = none ↔ ¬ (bytes.length = 0 ∨ a + bytes.length ≤ 4096) := by
  unfold State.memWrite
  rw [← inBounds_iff]
  split <;> simp_all

/-- A store that is made keeps memory canonical. -/
theorem State.memWrite_wf {s t : State} {a : Nat} {bytes : List Byte} (h : s.memWrite a bytes = some t)
    (hwf : s.mem.wf = true) : t.mem.wf = true := by
  obtain ⟨hb, rfl⟩ := State.memWrite_eq_some.1 h
  rcases hb with h0 | hb
  · rw [List.length_eq_zero_iff.1 h0]; exact hwf
  · exact Memory.wf_writeBytes bytes _ _ hwf hb

/-- The fetch answers a word exactly when both bytes are inside memory (R62), and it is the two bytes,
high byte first (R33). -/
theorem State.fetchWord_eq_some {s : State} {a : Nat} {w : Word} :
    s.fetchWord a = some w ↔ a ≤ 4094 ∧ w = wordOfBytes (s.mem.read a) (s.mem.read (a + 1)) := by
  unfold State.fetchWord
  have hb : inBounds a 2 = true ↔ a ≤ 4094 := by rw [inBounds_iff]; omega
  by_cases h : inBounds a 2 = true
  · rw [if_pos h, Option.some.injEq, ← hb]
    exact ⟨fun e => ⟨h, e.symm⟩, fun e => e.2.symm⟩
  · rw [if_neg h, ← hb]
    exact ⟨fun e => (Option.some_ne_none _ e.symm).elim, fun e => (h e.1).elim⟩

theorem State.fetchWord_eq_none {s : State} {a : Nat} : s.fetchWord a = none ↔ 4095 ≤ a := by
  unfold State.fetchWord
  have hb : inBounds a 2 = true ↔ a ≤ 4094 := by rw [inBounds_iff]; omega
  split
  · have := hb.1 ‹_›
    simp; omega
  · have : ¬ a ≤ 4094 := fun h => ‹¬ _› (hb.2 h)
    simp; omega

/-! ### The call stack -/

/-- A push succeeds exactly when a slot is free; it fills slot `SP` and moves `SP` up (R77). -/
theorem State.push_eq_some {s t : State} {w : Word} :
    s.push w = some t ↔ ∃ h : s.sp.val < 16,
      t = { s with stack := s.stack.set s.sp.val w, sp := ⟨s.sp.val + 1, by omega⟩ } := by
  unfold State.push
  by_cases h : s.sp.val < 16
  · rw [dif_pos h, Option.some.injEq]
    exact ⟨fun e => ⟨h, e.symm⟩, fun ⟨_, e⟩ => e.symm⟩
  · rw [dif_neg h]
    exact ⟨fun e => (Option.some_ne_none _ e.symm).elim, fun ⟨h', _⟩ => (h h').elim⟩

theorem State.push_eq_none {s : State} {w : Word} : s.push w = none ↔ s.sp.val = 16 := by
  unfold State.push
  split
  · simp; omega
  · simp; omega

/-- A pop succeeds exactly when a slot is occupied; it moves `SP` down and gives the slot that was the
top, which keeps its content (R75, R15). -/
theorem State.pop_eq_some {s t : State} {w : Word} :
    s.pop = some (w, t) ↔ ∃ h : 0 < s.sp.val,
      w = s.stack[s.sp.val - 1] ∧ t = { s with sp := ⟨s.sp.val - 1, by omega⟩ } := by
  unfold State.pop
  by_cases h : 0 < s.sp.val
  · rw [dif_pos h, Option.some.injEq, Prod.mk.injEq]
    exact ⟨fun e => ⟨h, e.1.symm, e.2.symm⟩, fun ⟨_, e⟩ => ⟨e.1.symm, e.2.symm⟩⟩
  · rw [dif_neg h]
    exact ⟨fun e => (Option.some_ne_none _ e.symm).elim, fun ⟨h', _⟩ => (h h').elim⟩

theorem State.pop_eq_none {s : State} : s.pop = none ↔ s.sp.val = 0 := by
  unfold State.pop
  split
  · simp; omega
  · simp; omega

/-! ### Operands -/

/-- A register names a key exactly when its value is below 16 (R126). -/
theorem keyOperand_eq_some {b : Byte} {k : Key} :
    keyOperand b = some k ↔ b.toNat < 16 ∧ k = b.setWidth 4 := by
  unfold keyOperand
  split
  · rw [Option.some.injEq]; exact ⟨fun e => ⟨‹_›, e.symm⟩, fun e => e.2.symm⟩
  · exact ⟨fun e => (Option.some_ne_none _ e.symm).elim, fun e => (‹¬ _› e.1).elim⟩

theorem keyOperand_eq_none {b : Byte} : keyOperand b = none ↔ 16 ≤ b.toNat := by
  unfold keyOperand
  split
  · simp; omega
  · simp; omega

@[simp] theorem length_regRange (s : State) (x : RegIdx) : (s.regRange x).length = x.toNat + 1 := by
  simp [State.regRange, rangeLength]

@[simp] theorem length_decimalDigits (b : Byte) : (decimalDigits b).length = 3 := rfl

/-- A skip changes `PC` at most (R79). -/
theorem State.skipIf_eq (s : State) (c : Bool) :
    s.skipIf c = s.setPc (if c then s.pc + 2 else s.pc) := by
  cases c <;> rfl

/-! ### Flags -/

@[simp] theorem addResult_toNat (a b : Byte) : (addResult a b).toNat = (a.toNat + b.toNat) % 256 := by
  simp [addResult]

@[simp] theorem subResult_toNat (a b : Byte) :
    (subResult a b).toNat = (a.toNat + 256 - b.toNat) % 256 := by
  have ha := a.isLt
  have hb := b.isLt
  simp only [subResult, BitVec.toNat_ofInt]
  omega

@[simp] theorem idxAddResult_toNat (a b : Word) :
    (idxAddResult a b).toNat = (a.toNat + b.toNat) % 65536 := by
  simp [idxAddResult]

@[simp] theorem countDown_toNat (t : Byte) : (countDown t).toNat = t.toNat - 1 := by
  have := t.isLt
  simp only [countDown, BitVec.toNat_ofNat]
  omega

@[simp] theorem glyphAddress_toNat (b : Byte) : (glyphAddress b).toNat = b.toNat * 5 := by
  have := b.isLt
  simp only [glyphAddress, BitVec.toNat_ofNat]
  omega

@[simp] theorem addrOperand_toNat (nnn : Addr12) : (addrOperand nnn).toNat = nnn.toNat := by
  have := nnn.isLt
  simp only [addrOperand, BitVec.toNat_setWidth]
  omega

@[simp] theorem State.regZext_toNat (s : State) (x : RegIdx) : (s.regZext x).toNat = (s.reg x).toNat := by
  have := (s.reg x).isLt
  simp only [State.regZext, BitVec.toNat_setWidth]
  omega

/-- Result then flag: `VF` ends as the flag, any other register `x` as the result (R96). -/
theorem State.reg_setRegThenFlag (s : State) (x y : RegIdx) (r : Byte) (f : Bool) :
    (s.setRegThenFlag x r f).reg y =
      if y = vfIdx then (if f then 1 else 0) else if y = x then r else s.reg y := by
  by_cases h : y = vfIdx
  · rw [if_pos h, h]; exact State.reg_setVF_self _ f
  · rw [if_neg h]
    exact (State.reg_setVF_ne _ f h).trans (State.reg_setReg s x y r)

/-- Flag then shift: for `x` other than `VF` both from the old value; for `VF` the flag itself is shifted
(R96). -/
theorem State.reg_setFlagThenShift (s : State) (x y : RegIdx) (out shift : Byte → Byte) :
    (s.setFlagThenShift x out shift).reg y =
      if y = x then (if x = vfIdx then shift (out (s.reg x)) else shift (s.reg x))
      else if y = vfIdx then out (s.reg x) else s.reg y := by
  unfold State.setFlagThenShift
  simp only [State.reg_setReg]
  split <;> split <;> rfl

end Sys2Proof.Machine
end

