-- ==== Sys2Proof/Laws/Frame.lean ====
section
/-! SUPPORT. The frame of each shared update: what it leaves alone, in the terms of `AgreesOutside`. -/

namespace Sys2Proof.Machine

/-- A state agrees with itself outside any write set. -/
theorem AgreesOutside.refl (w : WriteSet) (s : State) : AgreesOutside w s s where
  regs _ _ := rfl
  i _ := rfl
  pc _ := rfl
  mem _ _ := rfl
  slots _ _ _ := rfl
  sp _ := rfl
  fb _ _ _ := rfl
  dt _ := rfl
  st _ := rfl
  keys _ _ := rfl
  wait _ := rfl
  draws _ := rfl
  schedule := rfl

/-- A write to registers only: whatever registers differ are listed. -/
theorem agrees_regs {w : WriteSet} {s : State} {v : Vector Byte 16}
    (h : ∀ x : RegIdx, x ∉ w.regs → v[x.toNat] = s.v[x.toNat]) : AgreesOutside w s { s with v := v } :=
  { AgreesOutside.refl w s with regs := h }

theorem agrees_setReg (s : State) (x : RegIdx) (b : Byte) :
    AgreesOutside { regs := [x] } s (s.setReg x b) :=
  agrees_regs fun y hy => State.reg_setReg_ne s b (by simpa using hy)

theorem agrees_setRegThenFlag (s : State) (x : RegIdx) (r : Byte) (f : Bool) :
    AgreesOutside { regs := [x, vfIdx] } s (s.setRegThenFlag x r f) :=
  agrees_regs fun y hy => by
    have h := State.reg_setRegThenFlag s x y r f
    simp only [List.mem_cons, List.not_mem_nil, or_false, not_or] at hy
    rw [if_neg hy.2, if_neg hy.1] at h
    exact h

theorem agrees_setFlagThenShift (s : State) (x : RegIdx) (out shift : Byte → Byte) :
    AgreesOutside { regs := [x, vfIdx] } s (s.setFlagThenShift x out shift) :=
  agrees_regs fun y hy => by
    have h := State.reg_setFlagThenShift s x y out shift
    simp only [List.mem_cons, List.not_mem_nil, or_false, not_or] at hy
    rw [if_neg hy.1, if_neg hy.2] at h
    exact h

theorem agrees_setPc (s : State) (p : Word) : AgreesOutside { pc := true } s (s.setPc p) :=
  { AgreesOutside.refl { pc := true } s with pc := fun h => by cases h }

theorem agrees_skipIf (s : State) (c : Bool) : AgreesOutside { pc := true } s (s.skipIf c) := by
  rw [State.skipIf_eq]; exact agrees_setPc s _

theorem agrees_setI (s : State) (p : Word) : AgreesOutside { i := true } s (s.setI p) :=
  { AgreesOutside.refl { i := true } s with i := fun h => by cases h }

theorem agrees_setDt (s : State) (b : Byte) : AgreesOutside { dt := true } s (s.setDt b) :=
  { AgreesOutside.refl { dt := true } s with dt := fun h => by cases h }

theorem agrees_setSt (s : State) (b : Byte) : AgreesOutside { st := true } s (s.setSt b) :=
  { AgreesOutside.refl { st := true } s with st := fun h => by cases h }

theorem agrees_setWait (s : State) (x : Option RegIdx) :
    AgreesOutside { wait := true } s (s.setWait x) :=
  { AgreesOutside.refl { wait := true } s with wait := fun h => by cases h }

theorem agrees_setKey (s : State) (k : Key) (d : Bool) :
    AgreesOutside { keys := [k] } s (s.setKey k d) :=
  { AgreesOutside.refl { keys := [k] } s with
    keys := fun j hj => by rw [State.key_setKey, if_neg (by simpa using hj)] }

/-- A byte elsewhere keeps its value, whether or not the memory is canonical. -/
theorem Memory.read_write_ne : ∀ (m : Memory) (a a' : Nat) (b : Byte), a' ≠ a →
    (m.write a b).read a' = m.read a'
  | [], a, a', b, h => by
    simp only [Memory.write]
    split
    · rfl
    · simp [Memory.read, h]
  | (c, d) :: m, a, a', b, h => by
    simp only [Memory.write]
    split
    · split
      · rfl
      · rw [Memory.read, if_neg h]
    · split
      · rename_i hac
        subst hac
        split
        · rw [Memory.read, if_neg h]
        · rw [Memory.read, if_neg h, Memory.read, if_neg h]
      · simp only [Memory.read]
        split
        · rfl
        · exact Memory.read_write_ne m a a' b h

theorem Memory.read_writeBytes_ne (bs : List Byte) : ∀ (m : Memory) (a a' : Nat),
    a' ∉ addrRange a bs.length → (m.writeBytes a bs).read a' = m.read a' := by
  induction bs with
  | nil => intro m a a' _; rfl
  | cons b bs ih =>
    intro m a a' h
    have hne : a' ≠ a := by
      intro e
      exact h (List.mem_map.2 ⟨0, by simp, by simp [e]⟩)
    have hrest : a' ∉ addrRange (a + 1) bs.length := by
      intro hm
      obtain ⟨k, hk, e⟩ := List.mem_map.1 hm
      exact h (List.mem_map.2 ⟨k + 1, by simpa using hk, by rw [← e]; omega⟩)
    rw [Memory.writeBytes, ih _ _ _ hrest, Memory.read_write_ne m a a' b hne]

/-- A store changes the bytes it stores to and nothing else (R37). -/
theorem agrees_memWrite {s t : State} {a : Nat} {bytes : List Byte} (h : s.memWrite a bytes = some t) :
    AgreesOutside { mem := addrRange a bytes.length } s t := by
  obtain ⟨-, rfl⟩ := State.memWrite_eq_some.1 h
  exact { AgreesOutside.refl { mem := addrRange a bytes.length } s with
    mem := fun a' ha' => Memory.read_writeBytes_ne bytes s.mem a a' ha' }

end Sys2Proof.Machine
end

