-- ==== Sys2Proof/Laws/PerInstr.lean ====
section
/-! SUPPORT. A fact about every instruction as syntax, one lemma per constructor: its word meets the
mask and match of its row of spec/30_encoding.md R50. -/

namespace Sys2Proof

/-- The word of the instruction meets its row (R49). -/
def Laws.EncodesInRow.Statement (i : Instr) : Prop := i.row.covers (encodeWord i) = true

/-- Masking a concatenation part by part. -/
theorem and_append_parts {a b : Nat} {p m r : BitVec a} {q n t : BitVec b} (hp : p &&& m = r)
    (hq : q &&& n = t) : (p ++ q) &&& (m ++ n) = r ++ t := by
  rw [BitVec.and_append, hp, hq]

theorem covers_of_and_eq {r : OpRow} {w : Word} (h : w &&& r.mask = r.pat) : r.covers w = true :=
  beq_iff_eq.2 h

theorem and_allOnes4 (v : BitVec 4) : v &&& 0xF#4 = v := BitVec.and_allOnes

theorem and_allOnes8 (v : BitVec 8) : v &&& 0xFF#8 = v := BitVec.and_allOnes

/-- A word in the form ADDR meets a row that decodes the opcode only. -/
theorem formAddr_covers (m : String) (op : BitVec 4) (nnn : Addr12) :
    OpRow.covers ⟨m, 0xF#4 ++ 0#12, op ++ 0#12⟩ (formAddr op nnn) = true :=
  covers_of_and_eq (and_append_parts (and_allOnes4 op) BitVec.and_zero)

/-- A word in the form REG_IMM meets a row that decodes the opcode only. -/
theorem formRegImm_covers (m : String) (op : BitVec 4) (x : RegIdx) (nn : Byte) :
    OpRow.covers ⟨m, 0xF#4 ++ 0#4 ++ 0#8, op ++ 0#4 ++ 0#8⟩ (formRegImm op x nn) = true :=
  covers_of_and_eq
    (and_append_parts (and_append_parts (and_allOnes4 op) BitVec.and_zero) BitVec.and_zero)

/-- A word in the form REG_FN meets a row that decodes the opcode and the function code `nn`. -/
theorem formRegFn_covers (m : String) (op : BitVec 4) (x : RegIdx) (nn : Byte) :
    OpRow.covers ⟨m, 0xF#4 ++ 0#4 ++ 0xFF#8, op ++ 0#4 ++ nn⟩ (formRegImm op x nn) = true :=
  covers_of_and_eq
    (and_append_parts (and_append_parts (and_allOnes4 op) BitVec.and_zero) (and_allOnes8 nn))

/-- A word in the form REG_REG meets a row that decodes the opcode and the function code `n`. -/
theorem formRegReg_covers (m : String) (op : BitVec 4) (x y : RegIdx) (n : Nibble) :
    OpRow.covers ⟨m, 0xF#4 ++ 0#4 ++ 0#4 ++ 0xF#4, op ++ 0#4 ++ 0#4 ++ n⟩ (formRegReg op x y n) = true :=
  covers_of_and_eq
    (and_append_parts (and_append_parts (and_append_parts (and_allOnes4 op) BitVec.and_zero)
      BitVec.and_zero) (and_allOnes4 n))

/-- A word in the form REG_REG_N meets a row that decodes the opcode only. -/
theorem formRegRegN_covers (m : String) (op : BitVec 4) (x y : RegIdx) (n : Nibble) :
    OpRow.covers ⟨m, 0xF#4 ++ 0#4 ++ 0#4 ++ 0#4, op ++ 0#4 ++ 0#4 ++ 0#4⟩ (formRegReg op x y n) = true :=
  covers_of_and_eq
    (and_append_parts (and_append_parts (and_append_parts (and_allOnes4 op) BitVec.and_zero)
      BitVec.and_zero) BitVec.and_zero)

theorem Laws.EncodesInRow.cls : Laws.EncodesInRow.Statement (.cls) := rfl
theorem Laws.EncodesInRow.ret : Laws.EncodesInRow.Statement (.ret) := rfl
theorem Laws.EncodesInRow.jp (nnn : Addr12) : Laws.EncodesInRow.Statement (.jp nnn) := formAddr_covers "JP" 0x1 nnn
theorem Laws.EncodesInRow.call (nnn : Addr12) : Laws.EncodesInRow.Statement (.call nnn) := formAddr_covers "CALL" 0x2 nnn
theorem Laws.EncodesInRow.seI (x : RegIdx) (nn : Byte) : Laws.EncodesInRow.Statement (.seI x nn) := formRegImm_covers "SE_I" 0x3 x nn
theorem Laws.EncodesInRow.sneI (x : RegIdx) (nn : Byte) : Laws.EncodesInRow.Statement (.sneI x nn) := formRegImm_covers "SNE_I" 0x4 x nn
theorem Laws.EncodesInRow.seR (x : RegIdx) (y : RegIdx) : Laws.EncodesInRow.Statement (.seR x y) := formRegReg_covers "SE_R" 0x5 x y 0x0
theorem Laws.EncodesInRow.ldI (x : RegIdx) (nn : Byte) : Laws.EncodesInRow.Statement (.ldI x nn) := formRegImm_covers "LD_I" 0x6 x nn
theorem Laws.EncodesInRow.addI (x : RegIdx) (nn : Byte) : Laws.EncodesInRow.Statement (.addI x nn) := formRegImm_covers "ADD_I" 0x7 x nn
theorem Laws.EncodesInRow.ldR (x : RegIdx) (y : RegIdx) : Laws.EncodesInRow.Statement (.ldR x y) := formRegReg_covers "LD_R" 0x8 x y 0x0
theorem Laws.EncodesInRow.or (x : RegIdx) (y : RegIdx) : Laws.EncodesInRow.Statement (.or x y) := formRegReg_covers "OR" 0x8 x y 0x1
theorem Laws.EncodesInRow.and (x : RegIdx) (y : RegIdx) : Laws.EncodesInRow.Statement (.and x y) := formRegReg_covers "AND" 0x8 x y 0x2
theorem Laws.EncodesInRow.xor (x : RegIdx) (y : RegIdx) : Laws.EncodesInRow.Statement (.xor x y) := formRegReg_covers "XOR" 0x8 x y 0x3
theorem Laws.EncodesInRow.addR (x : RegIdx) (y : RegIdx) : Laws.EncodesInRow.Statement (.addR x y) := formRegReg_covers "ADD_R" 0x8 x y 0x4
theorem Laws.EncodesInRow.sub (x : RegIdx) (y : RegIdx) : Laws.EncodesInRow.Statement (.sub x y) := formRegReg_covers "SUB" 0x8 x y 0x5
theorem Laws.EncodesInRow.shr (x : RegIdx) (y : RegIdx) : Laws.EncodesInRow.Statement (.shr x y) := formRegReg_covers "SHR" 0x8 x y 0x6
theorem Laws.EncodesInRow.subn (x : RegIdx) (y : RegIdx) : Laws.EncodesInRow.Statement (.subn x y) := formRegReg_covers "SUBN" 0x8 x y 0x7
theorem Laws.EncodesInRow.shl (x : RegIdx) (y : RegIdx) : Laws.EncodesInRow.Statement (.shl x y) := formRegReg_covers "SHL" 0x8 x y 0xE
theorem Laws.EncodesInRow.sneR (x : RegIdx) (y : RegIdx) : Laws.EncodesInRow.Statement (.sneR x y) := formRegReg_covers "SNE_R" 0x9 x y 0x0
theorem Laws.EncodesInRow.ldIdx (nnn : Addr12) : Laws.EncodesInRow.Statement (.ldIdx nnn) := formAddr_covers "LD_IDX" 0xA nnn
theorem Laws.EncodesInRow.jpV0 (nnn : Addr12) : Laws.EncodesInRow.Statement (.jpV0 nnn) := formAddr_covers "JP_V0" 0xB nnn
theorem Laws.EncodesInRow.rnd (x : RegIdx) (nn : Byte) : Laws.EncodesInRow.Statement (.rnd x nn) := formRegImm_covers "RND" 0xC x nn
theorem Laws.EncodesInRow.drw (x : RegIdx) (y : RegIdx) (n : Nibble) : Laws.EncodesInRow.Statement (.drw x y n) := formRegRegN_covers "DRW" 0xD x y n
theorem Laws.EncodesInRow.skp (x : RegIdx) : Laws.EncodesInRow.Statement (.skp x) := formRegFn_covers "SKP" 0xE x 0x9E
theorem Laws.EncodesInRow.sknp (x : RegIdx) : Laws.EncodesInRow.Statement (.sknp x) := formRegFn_covers "SKNP" 0xE x 0xA1
theorem Laws.EncodesInRow.ldDt (x : RegIdx) : Laws.EncodesInRow.Statement (.ldDt x) := formRegFn_covers "LD_DT" 0xF x 0x07
theorem Laws.EncodesInRow.ldKey (x : RegIdx) : Laws.EncodesInRow.Statement (.ldKey x) := formRegFn_covers "LD_KEY" 0xF x 0x0A
theorem Laws.EncodesInRow.stDt (x : RegIdx) : Laws.EncodesInRow.Statement (.stDt x) := formRegFn_covers "ST_DT" 0xF x 0x15
theorem Laws.EncodesInRow.stSt (x : RegIdx) : Laws.EncodesInRow.Statement (.stSt x) := formRegFn_covers "ST_ST" 0xF x 0x18
theorem Laws.EncodesInRow.addIdx (x : RegIdx) : Laws.EncodesInRow.Statement (.addIdx x) := formRegFn_covers "ADD_IDX" 0xF x 0x1E
theorem Laws.EncodesInRow.ldFont (x : RegIdx) : Laws.EncodesInRow.Statement (.ldFont x) := formRegFn_covers "LD_FONT" 0xF x 0x29
theorem Laws.EncodesInRow.stBcd (x : RegIdx) : Laws.EncodesInRow.Statement (.stBcd x) := formRegFn_covers "ST_BCD" 0xF x 0x33
theorem Laws.EncodesInRow.stRegs (x : RegIdx) : Laws.EncodesInRow.Statement (.stRegs x) := formRegFn_covers "ST_REGS" 0xF x 0x55
theorem Laws.EncodesInRow.ldRegs (x : RegIdx) : Laws.EncodesInRow.Statement (.ldRegs x) := formRegFn_covers "LD_REGS" 0xF x 0x65

end Sys2Proof
end

