-- ==== Sys2Proof/Laws/Schedule.lean ====
section
/-! SUPPORT. The block does not see what the host will send next: an instruction does the same whatever
the schedule is, and leaves it alone (spec R72; notes/assumptions/6.md). -/

namespace Sys2Proof.Machine

/-- The state with another schedule. -/
def State.withSchedule (s : State) (es : List Event) : State := { s with schedule := es }

/-- An answer with another schedule in its next state. -/
def Result.withSchedule (r : Result) (es : List Event) : Result :=
  match r with
  | .next t => .next (t.withSchedule es)
  | .fault f => .fault f
  | .refused x => .refused x

theorem setRegsFrom_withSchedule (es : List Event) : ∀ (bs : List Byte) (s : State) (k : Nat),
    (s.withSchedule es).setRegsFrom k bs = (s.setRegsFrom k bs).withSchedule es
  | [], _, _ => rfl
  | b :: bs, s, k => by
    simp only [State.setRegsFrom]
    split
    · exact setRegsFrom_withSchedule es bs { s with v := s.v.set k b } (k + 1)
    · rfl

theorem skipIf_withSchedule (es : List Event) (s : State) (c : Bool) :
    (s.withSchedule es).skipIf c = (s.skipIf c).withSchedule es := by cases c <;> rfl

theorem push_withSchedule (es : List Event) (s : State) (w : Word) :
    (s.withSchedule es).push w = (s.push w).map (·.withSchedule es) := by
  by_cases h : s.sp.val < 16 <;> simp [State.push, State.withSchedule, h]

theorem pop_withSchedule (es : List Event) (s : State) :
    (s.withSchedule es).pop = s.pop.map fun p => (p.1, p.2.withSchedule es) := by
  by_cases h : 0 < s.sp.val <;> simp [State.pop, State.withSchedule, h]

theorem storeAtI_withSchedule (es : List Event) (bs : List Byte) (s : State) :
    storeAtI bs (s.withSchedule es) = Result.withSchedule (storeAtI bs s) es := by
  by_cases h : inBounds s.i.toNat bs.length = true <;>
    simp [storeAtI, State.memWrite, State.base, State.withSchedule, Result.withSchedule, raise, h]

theorem skipIfKey_withSchedule (es : List Event) (x : RegIdx) (b : Bool) (s : State) :
    skipIfKey x b (s.withSchedule es) = Result.withSchedule (skipIfKey x b s) es := by
  show (match keyOperand (s.reg x) with | none => _ | some k => _) = _
  simp only [skipIfKey]
  cases keyOperand (s.reg x) with
  | none => rfl
  | some k => exact congrArg Host.Outcome.next (skipIf_withSchedule es s _)

/-- No meaning reads or writes the schedule. -/
theorem exec_withSchedule (es : List Event) (i : Instr) (s : State) :
    exec i (s.withSchedule es) = Result.withSchedule (exec i s) es := by
  cases i
  case ret =>
    simp only [exec, execRet, pop_withSchedule]
    cases s.pop <;> rfl
  case call nnn =>
    simp only [exec, execCall]
    have h : (s.withSchedule es).push (s.withSchedule es).pc = (s.push s.pc).map (·.withSchedule es) :=
      push_withSchedule es s s.pc
    rw [h]
    cases s.push s.pc <;> rfl
  case drw x y n =>
    simp only [exec, execDrw]
    show (match s.memRead s.base n.toNat with | none => _ | some rows => _) = _
    cases s.memRead s.base n.toNat <;> rfl
  case ldRegs x =>
    simp only [exec, execLdRegs]
    show (match s.memRead s.base (rangeLength x) with | none => _ | some bytes => _) = _
    cases s.memRead s.base (rangeLength x) with
    | none => rfl
    | some bytes => exact congrArg Host.Outcome.next (setRegsFrom_withSchedule es bytes s 0)
  case stBcd x => exact storeAtI_withSchedule es _ s
  case stRegs x => exact storeAtI_withSchedule es _ s
  case skp x => exact skipIfKey_withSchedule es x true s
  case sknp x => exact skipIfKey_withSchedule es x false s
  case seI => exact congrArg Host.Outcome.next (skipIf_withSchedule es s _)
  case sneI => exact congrArg Host.Outcome.next (skipIf_withSchedule es s _)
  case seR => exact congrArg Host.Outcome.next (skipIf_withSchedule es s _)
  case sneR => exact congrArg Host.Outcome.next (skipIf_withSchedule es s _)
  all_goals rfl

/-- Nor does a `STEP`. -/
theorem stepEvent_withSchedule (es : List Event) (s : State) :
    stepEvent (s.withSchedule es) = Result.withSchedule (stepEvent s) es := by
  simp only [stepEvent]
  show (match s.wait with | some _ => _ | none => _) = _
  cases s.wait with
  | some _ => rfl
  | none =>
    simp only [runInstruction]
    show (match s.fetchWord s.pc.toNat with | none => _ | some word => _) = _
    cases s.fetchWord s.pc.toNat with
    | none => rfl
    | some word =>
      cases hd : decodeWord word with
      | none => simp only [hd]; rfl
      | some i => simp only [hd]; exact exec_withSchedule es i s.advance

end Sys2Proof.Machine
end

