-- ==== Sys2Proof/Tests/Slice0.lean ====
section
/-! SUPPORT. The model's own tests. Expected results come from spec/95_test_vectors.md and from the
encodings of spec/30_encoding.md, never from a run of the model. The witnesses at the end show that the
hypotheses of the statements can be met. -/

namespace Sys2Proof.Tests

open Sys2Proof Sys2Proof.Machine

/-! ## Helpers -/

/-- Is the answer a next state that passes the check? -/
def nextIs (r : Result) (p : State → Bool) : Bool :=
  match r with
  | .next t => p t
  | .fault _ => false
  | .refused _ => false

/-- Is the answer that fault? -/
def faultIs (r : Result) (f : Fault) : Bool :=
  match r with
  | .next _ => false
  | .fault g => g == f
  | .refused _ => false

/-- The step that runs the word placed at `PC`, here always 512. -/
def run1 (w : Nat) (s : State) : Result := step (s.withFetchWord 16 w)

/-- The reset state with some registers set. -/
def regs (l : List (RegIdx × Byte)) : State := l.foldl (fun s p => s.setReg p.1 p.2) State.reset

/-- A state with some bytes of memory written. -/
def bytesAt (a : Nat) (bs : List Byte) (s : State) : State := { s with mem := s.mem.writeBytes a bs }

/-- Two registers' values. -/
def pair (t : State) (x y : RegIdx) : Byte × Byte := (t.reg x, t.reg y)

/-- The columns of row `r` that are set. -/
def litIn (t : State) (r : Nat) : List Nat := (List.range 64).filter (t.pixel r)

/-! ## WellFormed: each check refuses an ill-formed term -/

theorem test_wf_row_pat_outside_mask : OpRow.wellFormed ⟨"BAD", 0xF000, 0x1001⟩ = false := by decide
theorem test_wf_rows_overlap : OpRow.disjoint ⟨"A", 0xF000, 0x8000⟩ ⟨"B", 0xF00F, 0x8003⟩ = false := by decide
theorem test_wf_table_overlap :
    tableWellFormed [⟨"A", 0xF000, 0x8000⟩, ⟨"B", 0xF00F, 0x8003⟩] = false := by decide
theorem test_wf_table_bad_row : tableWellFormed [⟨"BAD", 0xF000, 0x1001⟩] = false := by decide
/-- An image of `n` zero bytes. -/
def zeros (n : Nat) : List Byte := List.replicate n 0
theorem length_zeros (n : Nat) : (zeros n).length = n := List.length_replicate
theorem test_wf_image_3585 : imageWellFormed (zeros 3585) = false := by
  rw [imageWellFormed, length_zeros]; decide
theorem test_wf_image_3584 : imageWellFormed (zeros 3584) = true := by
  rw [imageWellFormed, length_zeros]; decide
/-- Every instruction is well-formed: its operands' types bound them (R46). -/
theorem test_wf_instr (i : Instr) : i.wellFormed = true := by cases i <;> rfl
/-- Section 4: 34 rows, each of which can be met, no two overlapping. -/
theorem test_wf_opTable : opTable.length = 34 ∧ tableWellFormed opTable = true := by decide
/-- Memory in another order, listed twice, out of range or with an initial byte is not canonical. -/
theorem test_wf_memory_refused :
    Memory.wf [(513, 1), (512, 1)] = false ∧ Memory.wf [(512, 1), (512, 2)] = false ∧
    Memory.wf [(4096, 1)] = false ∧ Memory.wf [(512, 0)] = false ∧ Memory.wf [(0, 0xF0)] = false := by decide

/-! ## Decoding: words written out from the encodings of R50 -/

theorem test_decode_cls : decodeWord 0b0000000011100000 = some (.cls) := by decide
theorem test_decode_ret : decodeWord 0b0000000011101110 = some (.ret) := by decide
theorem test_decode_jp : decodeWord 0b0001101010111100 = some (.jp 0xABC) := by decide
theorem test_decode_call : decodeWord 0b0010101010111100 = some (.call 0xABC) := by decide
theorem test_decode_seI : decodeWord 0b0011101001000010 = some (.seI 0xA 0x42) := by decide
theorem test_decode_sneI : decodeWord 0b0100101001000010 = some (.sneI 0xA 0x42) := by decide
theorem test_decode_seR : decodeWord 0b0101101010110000 = some (.seR 0xA 0xB) := by decide
theorem test_decode_ldI : decodeWord 0b0110101000101111 = some (.ldI 0xA 0x2F) := by decide
theorem test_decode_addI : decodeWord 0b0111000100000101 = some (.addI 1 5) := by decide
theorem test_decode_ldR : decodeWord 0b1000101010110000 = some (.ldR 0xA 0xB) := by decide
theorem test_decode_or : decodeWord 0b1000101010110001 = some (.or 0xA 0xB) := by decide
theorem test_decode_and : decodeWord 0b1000101010110010 = some (.and 0xA 0xB) := by decide
theorem test_decode_xor : decodeWord 0b1000101010110011 = some (.xor 0xA 0xB) := by decide
theorem test_decode_addR : decodeWord 0b1000101010110100 = some (.addR 0xA 0xB) := by decide
theorem test_decode_sub : decodeWord 0b1000101010110101 = some (.sub 0xA 0xB) := by decide
theorem test_decode_shr : decodeWord 0b1000101011110110 = some (.shr 0xA 0xF) := by decide
theorem test_decode_subn : decodeWord 0b1000101010110111 = some (.subn 0xA 0xB) := by decide
theorem test_decode_shl : decodeWord 0b1000101010111110 = some (.shl 0xA 0xB) := by decide
theorem test_decode_sneR : decodeWord 0b1001101010110000 = some (.sneR 0xA 0xB) := by decide
theorem test_decode_ldIdx : decodeWord 0b1010001011110000 = some (.ldIdx 0x2F0) := by decide
theorem test_decode_jpV0 : decodeWord 0b1011000100100011 = some (.jpV0 0x123) := by decide
theorem test_decode_rnd : decodeWord 0b1100001100001111 = some (.rnd 3 0x0F) := by decide
theorem test_decode_drw : decodeWord 0b1101000100101010 = some (.drw 1 2 0xA) := by decide
theorem test_decode_skp : decodeWord 0b1110000110011110 = some (.skp 1) := by decide
theorem test_decode_sknp : decodeWord 0b1110000110100001 = some (.sknp 1) := by decide
theorem test_decode_ldDt : decodeWord 0b1111000100000111 = some (.ldDt 1) := by decide
theorem test_decode_ldKey : decodeWord 0b1111000100001010 = some (.ldKey 1) := by decide
theorem test_decode_stDt : decodeWord 0b1111000100010101 = some (.stDt 1) := by decide
theorem test_decode_stSt : decodeWord 0b1111000100011000 = some (.stSt 1) := by decide
theorem test_decode_addIdx : decodeWord 0b1111000100011110 = some (.addIdx 1) := by decide
theorem test_decode_ldFont : decodeWord 0b1111000100101001 = some (.ldFont 1) := by decide
theorem test_decode_stBcd : decodeWord 0b1111000100110011 = some (.stBcd 1) := by decide
theorem test_decode_stRegs : decodeWord 0b1111000101010101 = some (.stRegs 1) := by decide
theorem test_decode_ldRegs : decodeWord 0b1111000101100101 = some (.ldRegs 1) := by decide
/-- Section 2.1: words that meet no row. -/
theorem test_decode_unknown :
    [0x00E1, 0x0000, 0x0123, 0x0FFF, 0x5AB1, 0x5ABF, 0x8AB8, 0x8ABD, 0x8ABF, 0x9AB1].all
      (fun w => (decodeWord w).isNone) = true := by decide
theorem test_decode_unknown_EF :
    [0xE193, 0xE19F, 0xE1A0, 0xE100, 0xF100, 0xF10B, 0xF11F, 0xF130, 0xF156, 0xF175, 0xF1FF].all
      (fun w => (decodeWord w).isNone) = true := by decide
/-- One byte is no instruction (R45). -/
theorem test_decode_truncated : decode [0x12] = .error .truncated := by decide
/-- The first byte is the high one (R33), and what follows is left. -/
theorem test_decode_bytes : decode [0x60, 0x05, 0x61] = .ok (.ldI 0 5, [0x61]) := by decide
theorem test_encode_bytes : encode (.drw 1 2 0xA) = [0xD1, 0x2A] := by decide
theorem test_decodeTableWord : decodeTableWord 16 0x8014 = some (.addR 0 1) := by decide

/-! ## One step: spec/95_test_vectors.md sections 1 and 2 -/

/-- `FB[5][12]` set before: `00E0` clears it and leaves `VF`. -/
theorem test_cls : nextIs (run1 0x00E0 ({ regs [(15, 1)] with fb := FrameBuffer.blank.flip 5 12 })) (fun t => t.reg 15 == 1 && !t.pixel 5 12 && t.pc == 0x202) = true := by decide
theorem test_ret : nextIs (run1 0x00EE ({ State.reset with sp := 1, stack := State.reset.stack.set 0 0x456 })) (fun t => t.sp == 0 && t.pc == 0x456) = true := by decide
theorem test_ret_underflow : faultIs (run1 0x00EE (State.reset)) (.stackUnderflow 0x200) = true := by decide
theorem test_jp_odd : nextIs (run1 0x1201 (State.reset)) (fun t => t.pc == 0x201) = true := by decide
theorem test_call : nextIs (run1 0x2300 ({ State.reset with sp := 15 })) (fun t => t.stack[15] == 0x202 && t.sp == 16 && t.pc == 0x300) = true := by decide
theorem test_call_overflow : faultIs (run1 0x2300 ({ State.reset with sp := 16 })) (.stackOverflow 0x200) = true := by decide
/-- D15: not wrapped at 12 bits. -/
theorem test_jpV0 : nextIs (run1 0xBFFF (regs [(0, 0xFF)])) (fun t => t.pc == 0x10FE) = true := by decide
theorem test_jpV0_no_Vx : nextIs (run1 0xB123 (regs [(1, 0x55)])) (fun t => t.pc == 0x123) = true := by decide
theorem test_seI_taken : nextIs (run1 0x3A05 (regs [(0xA, 5)])) (fun t => t.pc == 0x204) = true := by decide
theorem test_seI_not : nextIs (run1 0x3A05 (regs [(0xA, 6)])) (fun t => t.pc == 0x202) = true := by decide
theorem test_sneI_not : nextIs (run1 0x4A05 (regs [(0xA, 5)])) (fun t => t.pc == 0x202) = true := by decide
theorem test_sneI_taken : nextIs (run1 0x4A05 (regs [(0xA, 6)])) (fun t => t.pc == 0x204) = true := by decide
theorem test_seR_taken : nextIs (run1 0x5120 (regs [(1, 7), (2, 7)])) (fun t => t.pc == 0x204) = true := by decide
theorem test_seR_not : nextIs (run1 0x5120 (regs [(1, 7), (2, 8)])) (fun t => t.pc == 0x202) = true := by decide
theorem test_sneR_taken : nextIs (run1 0x9120 (regs [(1, 7), (2, 8)])) (fun t => t.pc == 0x204) = true := by decide
theorem test_sneR_not : nextIs (run1 0x9110 (regs [(1, 7)])) (fun t => t.pc == 0x202) = true := by decide
theorem test_ldI : nextIs (run1 0x6A2F (State.reset)) (fun t => t.reg 0xA == 0x2F) = true := by decide
theorem test_addI_wraps : nextIs (run1 0x7105 (regs [(1, 0xFE), (15, 0xAA)])) (fun t => pair t 1 15 == (3, 0xAA)) = true := by decide
theorem test_ldR : nextIs (run1 0x8120 (regs [(2, 0x55)])) (fun t => pair t 1 2 == (0x55, 0x55)) = true := by decide
theorem test_or : nextIs (run1 0x8121 (regs [(1, 0xF0), (2, 0x0F), (15, 1)])) (fun t => pair t 1 15 == (0xFF, 1)) = true := by decide
theorem test_and : nextIs (run1 0x8122 (regs [(1, 0xF3), (2, 0x3C)])) (fun t => t.reg 1 == 0x30) = true := by decide
theorem test_xor : nextIs (run1 0x8123 (regs [(1, 0xFF), (2, 0x0F)])) (fun t => t.reg 1 == 0xF0) = true := by decide
/-- The old `VF` is the operand. -/
theorem test_addR_carry : nextIs (run1 0x81F4 (regs [(1, 0xFE), (15, 3)])) (fun t => pair t 1 15 == (1, 1)) = true := by decide
/-- D9: the flag wins. -/
theorem test_addR_x_is_F : nextIs (run1 0x8F24 (regs [(15, 0xFF), (2, 2)])) (fun t => t.reg 15 == 1) = true := by decide
theorem test_sub_borrow : nextIs (run1 0x8125 (regs [(1, 3), (2, 5), (15, 0xAA)])) (fun t => pair t 1 15 == (0xFE, 1)) = true := by decide
theorem test_sub_no_borrow : nextIs (run1 0x8125 (regs [(1, 0xC8), (2, 0x38), (15, 0xAA)])) (fun t => pair t 1 15 == (0x90, 0)) = true := by decide
theorem test_subn_borrow : nextIs (run1 0x8127 (regs [(1, 5), (2, 3), (15, 0xAA)])) (fun t => pair t 1 15 == (0xFE, 1)) = true := by decide
theorem test_subn_equal : nextIs (run1 0x8127 (regs [(1, 0xFF), (2, 0xFF), (15, 0xAA)])) (fun t => pair t 1 15 == (0, 0)) = true := by decide
theorem test_shr : nextIs (run1 0x8126 (regs [(1, 0x81), (2, 0x33), (15, 0xAA)])) (fun t => pair t 1 15 == (0x40, 1) && t.reg 2 == 0x33) = true := by decide
/-- D9. -/
theorem test_shr_VF : nextIs (run1 0x8F06 (regs [(15, 0xFF)])) (fun t => t.reg 15 == 0) = true := by decide
theorem test_shl : nextIs (run1 0x812E (regs [(1, 0x81), (2, 0x33), (15, 0xAA)])) (fun t => pair t 1 15 == (2, 1)) = true := by decide
/-- D9. -/
theorem test_shl_VF : nextIs (run1 0x8F0E (regs [(15, 0x81)])) (fun t => t.reg 15 == 2) = true := by decide
/-- `C300`: any sample, and one is still taken. -/
theorem test_rnd_masked_out (s : State) :
    nextIs (exec (.rnd 3 0) s) (fun t => t.reg 3 == 0 && t.draws == s.draws + 1) = true := by
  simp [nextIs, exec, execRnd, State.sampleEntropy, State.reg, State.setReg]
theorem test_ldIdx : nextIs (run1 0xAFFF (State.reset)) (fun t => t.i == 0x0FFF) = true := by decide
/-- D14: no flag at 12 bits. -/
theorem test_addIdx_12_bits : nextIs (run1 0xF21E ({ regs [(2, 1)] with i := 0x0FFF })) (fun t => t.i == 0x1000 && t.reg 15 == 0) = true := by decide
theorem test_addIdx_16_bits : nextIs (run1 0xF21E ({ regs [(2, 2)] with i := 0xFFFF })) (fun t => t.i == 1 && t.reg 15 == 1) = true := by decide
theorem test_ldFont : nextIs (run1 0xF429 (regs [(4, 0xFF)])) (fun t => t.i == 0x04FB) = true := by decide
/-- S3. -/
theorem test_stBcd : nextIs (run1 0xF333 ({ regs [(3, 157)] with i := 0x300 })) (fun t => t.memRead 0x300 4 == some [1, 5, 7, 0]) = true := by decide
theorem test_stBcd_bounds : faultIs (run1 0xF033 ({ State.reset with i := 0xFFE })) (.outOfBoundsAccess 0xFFE 3) = true := by decide
theorem test_stRegs : nextIs (run1 0xF255 ({ regs [(0, 0x11), (1, 0x22), (2, 0x33), (3, 0x44)] with i := 0x400 })) (fun t => t.memRead 0x400 4 == some [0x11, 0x22, 0x33, 0] && t.i == 0x400) = true := by decide
theorem test_stRegs_bounds : faultIs (run1 0xFF55 ({ State.reset with i := 0xFF1 })) (.outOfBoundsAccess 0xFF1 16) = true := by decide
/-- The font's first bytes (D7). -/
theorem test_ldRegs : nextIs (run1 0xF265 (regs [(3, 9)])) (fun t => (t.reg 0, t.reg 1, t.reg 2, t.reg 3) == (0xF0, 0x90, 0x90, 9)) = true := by decide
theorem test_ldRegs_bounds : faultIs (run1 0xF065 ({ State.reset with i := 0x1000 })) (.outOfBoundsAccess 0x1000 1) = true := by decide
theorem test_drw_collision : nextIs (run1 0xD011 (bytesAt 0x300 [0xFF] { regs [(0, 10), (1, 5)] with i := 0x300, fb := FrameBuffer.blank.flip 5 12 })) (fun t => litIn t 5 == [10, 11, 13, 14, 15, 16, 17] && t.reg 15 == 1) = true := by decide
/-- The column is the old `VF`. -/
theorem test_drw_old_VF_column : nextIs (run1 0xDF11 (bytesAt 0x300 [0x80] { regs [(15, 3)] with i := 0x300 })) (fun t => litIn t 0 == [3] && t.reg 15 == 0) = true := by decide
theorem test_skp : nextIs (run1 0xE19E ((regs [(1, 5)]).setKey 5 true)) (fun t => t.pc == 0x204) = true := by decide
/-- D8. -/
theorem test_skp_no_key : faultIs (run1 0xE19E (regs [(1, 0x10)])) (.keyIndexOutOfRange 0x10) = true := by decide
theorem test_sknp : nextIs (run1 0xE1A1 (regs [(1, 5)])) (fun t => t.pc == 0x204) = true := by decide
/-- D8. -/
theorem test_sknp_no_key : faultIs (run1 0xE1A1 (regs [(1, 0x10)])) (.keyIndexOutOfRange 0x10) = true := by decide
theorem test_ldDt : nextIs (run1 0xF207 ({ State.reset with dt := 0x3C })) (fun t => t.reg 2 == 0x3C && t.dt == 0x3C) = true := by decide
/-- A held key does not end the wait. -/
theorem test_ldKey_held : nextIs (run1 0xF30A ((regs [(3, 0x55)]).setKey 7 true)) (fun t => t.wait == some 3 && t.pc == 0x202 && t.reg 3 == 0x55) = true := by decide
theorem test_stDt : nextIs (run1 0xF215 (regs [(2, 0x3C)])) (fun t => t.dt == 0x3C && t.st == 0) = true := by decide
theorem test_stSt : nextIs (run1 0xF218 ({ regs [(2, 0)] with st := 5 })) (fun t => t.st == 0 && !soundActive t) = true := by decide

/-! ## Events -/

/-- Section 2.7: the first step from reset reads 0000 at 512. -/
theorem test_reset_step : faultIs (step State.reset) (.unknownOpcode 0 0x200) = true := by decide
/-- Section 2.2: the last fetch that succeeds is at 4094. -/
theorem test_fetch_4094 :
    nextIs (step ({ State.reset with pc := 0xFFE }.withFetchWord 16 0x6007))
      (fun t => t.reg 0 == 7 && t.pc == 0x1000) = true := by decide
theorem test_fetch_4095 :
    faultIs (step { State.reset with pc := 0xFFF }) (.outOfBoundsAccess 0xFFF 2) = true := by decide
theorem test_tick : nextIs (applyEvent .tick { State.reset with dt := 0x3C, st := 1 })
    (fun t => t.dt == 0x3B && t.st == 0) = true := by decide
theorem test_tick_at_zero : nextIs (applyEvent .tick State.reset)
    (fun t => t.dt == 0 && t.st == 0) = true := by decide
theorem test_keyDown_ends_wait : nextIs (applyEvent (.keyDown 0) { regs [(15, 0x55)] with wait := some 15 })
    (fun t => t.key 0 && t.reg 15 == 0 && t.wait == none) = true := by decide
theorem test_keyUp_keeps_wait :
    nextIs (applyEvent (.keyUp 5) ({ State.reset with wait := some 3 }.setKey 5 true))
    (fun t => !t.key 5 && t.wait == some 3) = true := by decide
/-- Section 2.8: `RESET` with the image `12 00`. -/
theorem test_reset_image : nextIs (applyEvent (.reset [0x12, 0x00]) (regs [(1, 9)]))
    (fun t => t.memRead 0x200 3 == some [0x12, 0, 0] && t.memRead 0x4B 6 == some [0xF0, 0x80, 0xF0, 0x80, 0x80, 0] &&
      t.reg 1 == 0 && t.pc == 0x200) = true := by decide
theorem test_fault_codes : [Fault.programTooLarge 0, .unknownOpcode 0 0, .stackOverflow 0, .stackUnderflow 0,
    .outOfBoundsAccess 0 0, .keyIndexOutOfRange 0].map Fault.code = [1, 2, 3, 4, 5, 6] := by decide
/-- The schedule's first event comes first: a `TICK`, not the `STEP` that would fault. -/
theorem test_schedule : nextIs (step { State.reset with dt := 2, schedule := [.tick] })
    (fun t => t.dt == 1 && t.schedule == []) = true := by decide

/-! ## Witnesses: concrete states and operands that meet the hypotheses of each statement, one for each
clause, at the boundary of its range where it has one -/

/-- A state that waits for a key in `V[3]`. -/
def waiting : State := { State.reset with wait := some 3 }
/-- A state with 16 slots occupied, each holding 514, as after sixteen `2200`. -/
def full : State := { State.reset with sp := 16, stack := Vector.replicate 16 0x202 }
/-- A state with `I` set. -/
def atI (i : Word) : State := { State.reset with i := i }

theorem witness_EncodeOfDecodeIsTheWord : decodeWord 0x8AF6 = some (.shr 0xA 0xF) := by decide
theorem witness_DecodeFollowsMaskAndMatch :
    decodeWord 0x00EE = some .ret ∧ decodeWord 0x00EF = none ∧
    (∃ r ∈ opTable, r.covers 0x00EE = true) ∧ (∀ r ∈ opTable, r.covers 0x00EF = false) := by decide
theorem witness_StepRunsTheDecodedInstruction :
    let s : State := bytesAt 0xFFE [0x60, 0x07] { State.reset with pc := 0xFFE }
    s.nextEvent = .step ∧ s.wait = none ∧ s.pc.toNat + 1 = 4095 ∧
    decode [s.mem.read s.pc.toNat, s.mem.read (s.pc.toNat + 1)] = .ok (.ldI 0 7, []) := by decide
theorem witness_StepFaultsInStageOrder_fetch :
    let s : State := { State.reset with pc := 0xFFF }
    s.nextEvent = .step ∧ s.wait = none ∧ s.pc.toNat ≥ 4095 := by decide
theorem witness_StepFaultsInStageOrder_decode :
    let s : State := { State.reset with pc := 0xFFE }
    s.pc.toNat ≤ 4094 ∧
    decodeWord (wordOfBytes (s.mem.read s.pc.toNat) (s.mem.read (s.pc.toNat + 1))) = none := by decide
theorem witness_StepFaultsInStageOrder_execute :
    let s := State.reset.withFetchWord 16 0x00EE
    decodeWord (wordOfBytes (s.mem.read s.pc.toNat) (s.mem.read (s.pc.toNat + 1))) = some .ret ∧
    faultCause .ret s.popEvent.advance = some (.stackUnderflow 0x200) := by decide
theorem witness_UnknownOpcodeExactlyForUnknownWords :
    stepEvent State.reset = .fault (.unknownOpcode 0 0x200) ∧ State.reset.wait = none ∧
    State.reset.pc.toNat + 1 ≤ 4095 ∧
    wordOfBytes (State.reset.mem.read 512) (State.reset.mem.read 513) = 0 ∧ decodeWord 0 = none :=
  ⟨rfl, by decide⟩
theorem witness_StepsWhileWaitingDoNothing : waiting.wait = some 3 := rfl
theorem witness_KeyDownSetsTheFlagAndEndsAWait : waiting.wait = some 3 ∧ State.reset.wait = none := ⟨rfl, rfl⟩
theorem witness_FaultLeavesTheStateAsItWas_step :
    deliver .step (.machine State.reset) = .ok (.machine State.reset, some (.unknownOpcode 0 0x200)) ∧
    isReset .step = false := ⟨rfl, rfl⟩
theorem witness_FaultLeavesTheStateAsItWas_reset :
    deliver (.reset (zeros 3585)) (.machine State.reset) = .ok (.absent 0 [], some (.programTooLarge 3585)) ∧
    isReset (.reset (zeros 3585)) = true := by
  refine ⟨?_, rfl⟩
  simp only [deliver, applyEvent, loadImage, test_wf_image_3585, length_zeros, Bool.false_eq_true, if_false, raise]
  rfl
theorem witness_FaultedMachineStaysFaulted :
    stepEvent State.reset = .fault (.unknownOpcode 0 0x200) ∧
    ∀ e ∈ [Event.tick, .keyDown 5, .step, .keyUp 5], isReset e = false := ⟨rfl, by decide⟩
theorem witness_RunFollowsTheSchedule : State.reset.schedule = [] := rfl
theorem witness_PlacedWordIsRunNext :
    State.reset.mem.wf = true ∧ decodeTableWord 16 0xD12A = some (.drw 1 2 0xA) := by decide
theorem witness_ResetLoadsTheImage : ∃ image : List Byte, image.length = 3584 := ⟨zeros 3584, length_zeros _⟩
theorem witness_ProgramTooLargeExactlyOver3584 :
    (zeros 3584).length ≤ 3584 ∧ (zeros 3585).length > 3584 ∧ isReset .tick = false := by
  rw [length_zeros, length_zeros]; decide
theorem witness_FramebufferListsEveryPixelRowMajor : 31 < 32 ∧ 63 < 64 := by decide
theorem witness_RetPopsIntoPc : 0 < full.sp.val ∧ State.reset.sp.val = 0 := by decide
/-- A return to 4096, after which the next fetch faults. -/
theorem witness_RetPopsIntoPc_past_memory :
    nextIs (exec .ret { State.reset with sp := 1, stack := State.reset.stack.set 0 0x1000 })
      (fun t => t.pc.toNat == 4096 && t.wait == none) = true := by decide
/-- The states with 0 and with 16 occupied slots meet the invariant. -/
theorem witness_StateInv : StateInv State.reset ∧ StateInv full := by
  refine ⟨⟨by decide, fun k _ h => ?_, by decide⟩, ⟨by decide, fun k _ _ => ?_, by decide⟩⟩
  · exact absurd h (Nat.not_lt_zero k)
  · simp [full]
theorem witness_JpSetsPc :
    let s := State.reset.withFetchWord 16 0x1200
    State.reset.wait = none ∧ s.wait = none ∧ s.pc.toNat = (0x200 : Addr12).toNat ∧
    s.fetchWord s.pc.toNat = some (0x1#4 ++ (0x200 : Addr12)) := by decide
theorem witness_CallPushesTheReturnAddress :
    ({ State.reset with sp := 15 } : State).sp.val < 16 ∧ full.sp.val = 16 := by decide
theorem witness_RetAfterCallResumes :
    nextIs (exec (.call 0x300) { State.reset with sp := 15 }) (fun t => t.sp == 16) = true := by decide
/-- The sum is at most 0x10FE, and reaches it. -/
theorem witness_JpV0AddsV0 :
    let s := regs [(0, 0xFF)]
    nextIs (exec (.jpV0 0xFFF) s) (fun t => t.pc.toNat == 0x10FE && t.wait == none) = true ∧
    nextIs (exec (.jpV0 0xF00) s) (fun t => t.pc.toNat == 4095) = true := by decide
theorem witness_RegisterSkips : (1 : Nibble) ≠ 0 := by decide
theorem witness_AddAndSubtractWithFlag : (1 : RegIdx) ≠ vfIdx ∧ (15 : RegIdx) = vfIdx := by decide
theorem witness_ShiftsByOne : (14 : RegIdx) ≠ vfIdx ∧ (15 : RegIdx) = vfIdx := by decide
theorem witness_OnlyRndSamplesEntropy :
    nextIs (exec .cls State.reset) (fun _ => true) = true ∧ (∀ x nn, Instr.cls ≠ .rnd x nn) ∧
    nextIs (applyEvent .tick State.reset) (fun _ => true) = true ∧ Event.tick ≠ .step ∧
    nextIs (stepEvent waiting) (fun _ => true) = true ∧ waiting.wait ≠ none :=
  ⟨by decide, (fun _ _ h => nomatch h), by decide⟩
theorem witness_BcdStoresThreeDigits :
    (atI 4093).mem.wf = true ∧ (atI 4093).i.toNat + 2 ≤ 4095 ∧ (atI 4094).i.toNat + 2 > 4095 := by decide
theorem witness_StoreRegistersAtI :
    (atI 4080).mem.wf = true ∧ (atI 4080).i.toNat + (15 : RegIdx).toNat ≤ 4095 ∧
    (atI 4081).i.toNat + (15 : RegIdx).toNat > 4095 := by decide
theorem witness_LoadRegistersFromI :
    (atI 4095).i.toNat + (0 : RegIdx).toNat ≤ 4095 ∧ (atI 4096).i.toNat + (0 : RegIdx).toNat > 4095 := by decide
theorem witness_StoreThenLoadIsIdentity :
    (atI 4080).mem.wf = true ∧ nextIs (exec (.stRegs 15) (atI 4080)) (fun _ => true) = true := by decide
theorem witness_StoredBytesAreFetched :
    (atI 4080).mem.wf = true ∧ nextIs (exec (.stRegs 15) (atI 4080)) (fun _ => true) = true ∧
    (15 : RegIdx).toNat = (14 : RegIdx).toNat + 1 := by decide
theorem witness_MemoryAccessIsCheckedAndKept :
    State.reset.mem.wf = true ∧ 4095 + 1 - 1 ≤ 4095 ∧ 4095 + 2 - 1 > 4095 ∧ 1 ≤ ([7] : List Byte).length := by
  decide
theorem witness_CanonicalMemoriesThatReadAlikeAreEqual :
    Memory.wf (Memory.write [] 512 7) = true ∧ Memory.wf [(512, 7)] = true ∧
    Memory.write [] 512 7 = [(512, 7)] := by decide
theorem witness_DrwIsTheClosedForm :
    (atI 4086).i.toNat + (10 : Nibble).toNat - 1 = 4095 ∧
    (bytesAt 0x300 [0x80] { atI 0x300 with fb := FrameBuffer.blank.flip 0 0 }).pixel 0 0 = true ∧
    (bytesAt 0x300 [0x80] (atI 0x300)).spriteAt 0 0 1 0 0 = true := by decide
theorem witness_DrwChecksAllRowsFirst :
    1 ≤ (1 : Nibble).toNat ∧ (atI 4096).i.toNat + (1 : Nibble).toNat - 1 > 4095 := by decide
theorem witness_DrawingTwiceRestores :
    let s := bytesAt 0x300 [0xFF] (atI 0x300)
    nextIs (exec (.drw 0 1 1) s) (fun t => t.reg 0 == s.reg 0 && t.reg 1 == s.reg 1) = true ∧
    s.pixel 0 7 = false ∧ s.spriteAt 0 1 1 0 7 = true := by decide
theorem witness_OffScreenOriginDrawsNothing :
    (atI 0x300).i.toNat + (1 : Nibble).toNat - 1 ≤ 4095 ∧ ((regs [(0, 64)]).reg 0).toNat ≥ 64 ∧
    ((regs [(1, 32)]).reg 1).toNat ≥ 32 := by decide
theorem witness_TimerAccess :
    (∀ z, Instr.ldDt 1 ≠ .stSt z) ∧ nextIs (exec (.ldDt 1) State.reset) (fun _ => true) = true ∧
    exec .ret State.reset = .fault (.stackUnderflow 0x1FE) ∧ (∀ z, Instr.ret ≠ .stSt z) :=
  ⟨(fun _ h => nomatch h), by decide, rfl, (fun _ h => nomatch h)⟩
theorem witness_KeySkips :
    ((regs [(1, 15)]).reg 1).toNat = (15 : Key).toNat ∧ ((regs [(1, 16)]).reg 1).toNat > 15 := by decide
theorem witness_KeyWaitEndsOnlyAtKeyDownOrReset :
    (∀ e ∈ [Event.step, .tick, .keyUp 7, .step], keepsWaiting e = true) ∧ ([] : List Byte).length ≤ 3584 := by decide
theorem witness_EveryInstructionKeepsItsFrame :
    nextIs (exec (.call 0x300) State.reset) (fun _ => true) = true := by decide
theorem witness_FaultsExactlyInTheListedCases :
    faultCause (.ldRegs 0) (atI 4095) = none ∧
    faultCause (.ldRegs 0) (atI 4096) = some (.outOfBoundsAccess 4096 1) := by decide
theorem witness_OnlyFlagInstructionsWriteVF :
    writesFlag (.ldI 1 7) = false ∧ destIsVF (.ldI 1 7) = false ∧ writesFlag (.addIdx 1) = true ∧
    nextIs (exec (.addIdx 1) State.reset) (fun _ => true) = true ∧
    nextIs (exec (.shl vfIdx 0) State.reset) (fun _ => true) = true := by decide
theorem witness_EveryStepKeepsTheInvariant :
    StateInv full ∧ nextIs (step (full.withFetchWord 16 0x00EE)) (fun t => t.pc == 0x202) = true :=
  ⟨witness_StateInv.2, by decide⟩
theorem witness_EveryScheduleKeepsTheInvariant :
    runEvents [.step, .tick] (.machine State.reset) =
      .ok (.machine State.reset, [some (.unknownOpcode 0 0x200), none]) := rfl

/-- Three samples taken, a `RESET` that failed, then one that succeeds: the stream stands where it was. -/
theorem witness_EntropyStreamNeverGoesBack :
    runEvents [.reset []] (.absent 3 [.tick]) =
      .ok (.machine { State.reset with draws := 3, schedule := [.tick] }, [none]) := rfl

end Sys2Proof.Tests
end

/-! # The state: reset, the invariant, the canonical memory, the frame of every instruction

Proofs about spec/10_state.md (R10 to R24): what a completed instruction has done, the invariant of R23,
memory's canonical form, the reset state of R21, the writes column of R24 and the flag register of R11. -/

namespace Sys2Proof.Machine

/-! ## What a meaning that can fault has done when it completes -/

theorem execRet_eq_next {s t : State} :
    execRet s = .next t ↔ ∃ target s', s.pop = some (target, s') ∧ t = s'.setPc target := by
  unfold execRet
  cases s.pop with
  | none => simp [raise]
  | some p =>
    obtain ⟨target, s'⟩ := p
    simp [eq_comm]

theorem execCall_eq_next {nnn : Addr12} {s t : State} :
    execCall nnn s = .next t ↔ ∃ s', s.push s.pc = some s' ∧ t = s'.setPc (addrOperand nnn) := by
  unfold execCall
  cases s.push s.pc with
  | none => simp [raise]
  | some s' => simp [eq_comm]

theorem skipIfKey_eq_next {x : RegIdx} {wanted : Bool} {s t : State} :
    skipIfKey x wanted s = .next t ↔
      ∃ k, keyOperand (s.reg x) = some k ∧ t = s.skipIf (s.key k == wanted) := by
  unfold skipIfKey
  cases keyOperand (s.reg x) with
  | none => simp [raise]
  | some k => simp [eq_comm]

theorem storeAtI_eq_next {bytes : List Byte} {s t : State} :
    storeAtI bytes s = .next t ↔ s.memWrite s.base bytes = some t := by
  unfold storeAtI
  cases s.memWrite s.base bytes <;> simp [raise]

theorem execLdRegs_eq_next {x : RegIdx} {s t : State} :
    execLdRegs x s = .next t ↔
      ∃ bytes, s.memRead s.base (rangeLength x) = some bytes ∧ t = s.setRegsFrom 0 bytes := by
  unfold execLdRegs
  cases s.memRead s.base (rangeLength x) with
  | none => simp [raise]
  | some bytes => simp [eq_comm]

/-- A draw that completes has changed the framebuffer and `VF`, a flag of 0 or 1 (R111, R113). -/
theorem execDrw_eq_next {x y : RegIdx} {n : Nibble} {s t : State} (h : execDrw x y n s = .next t) :
    ∃ (fb : FrameBuffer) (hit : Bool), t = { s with fb := fb }.setVF hit := by
  unfold execDrw at h
  cases hrows : s.memRead s.base n.toNat with
  | none => simp [hrows, raise] at h
  | some rows =>
    simp only [hrows, Host.Outcome.next.injEq] at h
    exact ⟨_, _, h.symm⟩

/-- A `STEP` of a Running machine that completes has fetched, decoded and executed (R62). -/
theorem runInstruction_eq_next {s t : State} :
    runInstruction s = .next t ↔
      ∃ w i, s.fetchWord s.pc.toNat = some w ∧ decodeWord w = some i ∧ exec i s.advance = .next t := by
  unfold runInstruction
  cases s.fetchWord s.pc.toNat with
  | none => simp [raise]
  | some w => cases hd : decodeWord w <;> simp [raise, hd]

/-! ## The invariant of R23 -/

/-- The invariant reads `PC`, the stack and memory only. -/
theorem StateInv.congr {s t : State} (hs : StateInv s) (hpc : t.pc = s.pc) (hstack : t.stack = s.stack)
    (hsp : t.sp = s.sp) (hmem : t.mem = s.mem) : StateInv t where
  pc := hpc ▸ hs.pc
  slots := by rw [hstack, hsp]; exact hs.slots
  mem := hmem ▸ hs.mem

theorem StateInv.setPc {s : State} (hs : StateInv s) {w : Word} (hw : w.toNat ≤ 0x10FE) :
    StateInv (s.setPc w) where
  pc := hw
  slots := hs.slots
  mem := hs.mem

/-- An advance or a skip from at most 4096 stays far below the bound of R23. -/
theorem StateInv.advance {s : State} (hs : StateInv s) (hpc : s.pc.toNat ≤ 4096) : StateInv s.advance :=
  hs.setPc (by bv_omega)

theorem StateInv.skipIf {s : State} (hs : StateInv s) (hpc : s.pc.toNat ≤ 4096) (c : Bool) :
    StateInv (s.skipIf c) := by
  cases c with
  | false => exact hs
  | true => exact hs.advance hpc

theorem StateInv.memWrite {s t : State} {a : Nat} {bytes : List Byte} (hs : StateInv s)
    (h : s.memWrite a bytes = some t) : StateInv t := by
  have hmem := State.memWrite_wf h hs.mem
  obtain ⟨-, rfl⟩ := State.memWrite_eq_some.1 h
  exact ⟨hs.pc, hs.slots, hmem⟩

/-- A push of a value in 2..4096 keeps every occupied slot in that range (R77). -/
theorem StateInv.push {s t : State} {w : Word} (hs : StateInv s) (hlo : 2 ≤ w.toNat)
    (hhi : w.toNat ≤ 4096) (h : s.push w = some t) : StateInv t := by
  obtain ⟨hfree, rfl⟩ := State.push_eq_some.1 h
  refine ⟨hs.pc, fun k hk hocc => ?_, hs.mem⟩
  by_cases htop : s.sp.val = k
  · simp [htop, hlo, hhi]
  · have hbelow : k < s.sp.val := by
      have : k < s.sp.val + 1 := hocc
      omega
    simpa [Vector.getElem_set, htop] using hs.slots k hk hbelow

/-- A pop gives a value in 2..4096 and leaves fewer occupied slots (R75). -/
theorem StateInv.pop {s t : State} {w : Word} (hs : StateInv s) (h : s.pop = some (w, t)) :
    w.toNat ≤ 4096 ∧ StateInv t := by
  obtain ⟨hocc, rfl, rfl⟩ := State.pop_eq_some.1 h
  exact ⟨(hs.slots _ (by omega) (by omega)).2,
    hs.pc, fun k hk hlt => hs.slots k hk (Nat.lt_of_lt_of_le hlt (Nat.sub_le _ _)), hs.mem⟩

/-- `Bnnn` reaches at most 0xFFF + 0xFF, the bound of R23. -/
theorem jpV0_target_le (nnn : Addr12) (s : State) : (addrOperand nnn + s.regZext 0).toNat ≤ 0x10FE := by
  have hn := nnn.isLt
  have hv := (s.reg 0).isLt
  rw [BitVec.toNat_add, addrOperand_toNat, State.regZext_toNat]
  omega

/-- An instruction executed behind a successful fetch, so with the advanced `PC` in 2..4096, keeps the
invariant. -/
theorem exec_keeps_inv (i : Instr) {s t : State} (hs : StateInv s) (hlo : 2 ≤ s.pc.toNat)
    (hhi : s.pc.toNat ≤ 4096) (h : exec i s = .next t) : StateInv t := by
  have haddr (nnn : Addr12) : (addrOperand nnn).toNat ≤ 0x10FE := by
    have := nnn.isLt
    rw [addrOperand_toNat]; omega
  cases i
  case jp nnn =>
    obtain rfl := Host.Outcome.next.inj h
    exact hs.setPc (haddr nnn)
  case jpV0 nnn =>
    obtain rfl := Host.Outcome.next.inj h
    exact hs.setPc (jpV0_target_le nnn s)
  case call nnn =>
    obtain ⟨s', hpush, rfl⟩ := execCall_eq_next.1 h
    exact (hs.push hlo hhi hpush).setPc (haddr nnn)
  case ret =>
    obtain ⟨target, s', hpop, rfl⟩ := execRet_eq_next.1 h
    obtain ⟨htarget, hs'⟩ := hs.pop hpop
    exact hs'.setPc (by omega)
  case seI | sneI | seR | sneR =>
    obtain rfl := Host.Outcome.next.inj h
    exact hs.skipIf hhi _
  case skp | sknp =>
    obtain ⟨k, -, rfl⟩ := skipIfKey_eq_next.1 h
    exact hs.skipIf hhi _
  case stBcd | stRegs => exact hs.memWrite (storeAtI_eq_next.1 h)
  case ldRegs x =>
    obtain ⟨bytes, -, rfl⟩ := execLdRegs_eq_next.1 h
    exact hs.congr (by simp) (by simp) (by simp) (by simp)
  case drw x y n =>
    obtain ⟨fb, hit, rfl⟩ := execDrw_eq_next h
    exact hs.congr rfl rfl rfl rfl
  -- The rest write neither `PC` nor the stack nor memory.
  all_goals
    obtain rfl := Host.Outcome.next.inj h
    exact hs.congr rfl rfl rfl rfl

/-- A successful fetch is from at most 4094, so the advanced `PC` is in 2..4096 (R13). -/
theorem runInstruction_keeps_inv {s t : State} (hs : StateInv s) (h : runInstruction s = .next t) :
    StateInv t := by
  obtain ⟨w, i, hfetch, -, hexec⟩ := runInstruction_eq_next.1 h
  obtain ⟨hpc, -⟩ := State.fetchWord_eq_some.1 hfetch
  refine exec_keeps_inv i (hs.advance (by omega)) ?_ ?_ hexec
  · rw [State.advance_pc]; bv_omega
  · rw [State.advance_pc]; bv_omega

theorem stepEvent_keeps_inv {s t : State} (hs : StateInv s) (h : stepEvent s = .next t) :
    StateInv t := by
  cases hw : s.wait with
  | some x =>
    simp only [stepEvent, hw, Host.Outcome.next.injEq] at h
    exact h ▸ hs
  | none =>
    simp only [stepEvent, hw] at h
    exact runInstruction_keeps_inv hs h

theorem keyDownEvent_keeps_inv {s : State} (hs : StateInv s) (k : Key) :
    StateInv (keyDownEvent k s) := by
  unfold keyDownEvent
  split <;> exact hs.congr rfl rfl rfl rfl

/-- Settles O52: no slot is occupied and no cell of memory is listed. -/
theorem resetMeetsTheInvariant : Obligations.ResetMeetsTheInvariant :=
  ⟨by decide, fun _ _ hocc => absurd hocc (Nat.not_lt_zero _), State.reset_mem_wf⟩

/-- An accepted image loaded at 512 ends inside memory (R137, R151). -/
theorem image_fits {image : List Byte} (h : imageWellFormed image = true) :
    Config.progBase + image.length ≤ 4096 := by
  have hlen : image.length ≤ 3584 := of_decide_eq_true h
  show 512 + image.length ≤ 4096
  omega

/-- A successful `RESET` meets the invariant whatever came before (R150). -/
theorem loadImage_meets_inv {image : List Byte} {s t : State} (h : loadImage image s = .next t) :
    StateInv t := by
  obtain ⟨hlen, rfl⟩ := loadImage_eq_next.1 h
  obtain ⟨hpc, hslots, hmem⟩ : StateInv State.reset := resetMeetsTheInvariant
  exact ⟨hpc, hslots, Memory.wf_writeBytes image [] _ hmem (image_fits hlen)⟩

theorem applyEvent_keeps_inv (e : Event) {s t : State} (hs : StateInv s)
    (h : applyEvent e s = .next t) : StateInv t := by
  cases e with
  | reset image => exact loadImage_meets_inv h
  | step => exact stepEvent_keeps_inv hs h
  | tick =>
    obtain rfl := Host.Outcome.next.inj h
    exact hs.congr rfl rfl rfl rfl
  | keyDown k =>
    obtain rfl := Host.Outcome.next.inj h
    exact keyDownEvent_keeps_inv hs k
  | keyUp k =>
    obtain rfl := Host.Outcome.next.inj h
    exact hs.congr rfl rfl rfl rfl

/-- Settles O53: the step is the transition of the next event, and every event's transition keeps the
invariant. -/
theorem everyStepKeepsTheInvariant : Obligations.EveryStepKeepsTheInvariant := by
  unfold Obligations.EveryStepKeepsTheInvariant
  intro s t hs h
  exact applyEvent_keeps_inv s.nextEvent (s := s.popEvent) (hs.congr rfl rfl rfl rfl) h

/-- The invariant of what the host has: it holds of the machine, if there is one. -/
def Holding.Inv (m : Holding) : Prop := ∀ s, m = .machine s → StateInv s

theorem Holding.inv_machine {s : State} : (Holding.machine s).Inv ↔ StateInv s :=
  ⟨fun h => h s rfl, fun h _ e => Holding.machine.inj e ▸ h⟩

theorem Holding.inv_discard (m : Holding) : m.discard.Inv := fun _ e => Holding.noConfusion e

/-- Delivering an event keeps the invariant: a transition keeps it, a fault leaves the machine as it was, a
failed `RESET` leaves none, and a first `RESET` sets it up. -/
theorem deliver_keeps_inv {e : Event} {m m' : Holding} {f : Option Fault} (hm : m.Inv)
    (h : deliver e m = .ok (m', f)) : m'.Inv := by
  obtain ⟨s, t, rfl, happly, rfl, -⟩ | ⟨s, g, -, -, -, rfl, -⟩ | ⟨len, rfl, -, -⟩ |
    ⟨image, t, -, -, rfl, -, hload⟩ := deliver_cases h
  · exact Holding.inv_machine.2 (applyEvent_keeps_inv e (Holding.inv_machine.1 hm) happly)
  · exact hm
  · exact m.inv_discard
  · exact Holding.inv_machine.2 (loadImage_meets_inv hload)

/-- Settles O54, by induction on the events. -/
theorem everyScheduleKeepsTheInvariant : Obligations.EveryScheduleKeepsTheInvariant := by
  unfold Obligations.EveryScheduleKeepsTheInvariant
  intro es
  induction es with
  | nil =>
    intro m m' fs hm h
    obtain ⟨rfl, -⟩ := Prod.mk.inj (Except.ok.inj h)
    exact hm
  | cons e es ih =>
    intro m m' fs hm h
    obtain ⟨m₁, f, fs', hdeliver, hrest, -⟩ := runEvents_cons.1 h
    exact ih m₁ m' fs' (deliver_keeps_inv hm hdeliver) hrest


/-! ## The canonical form of memory -/

/-- The first cell of a canonical memory, read as a fact of its own. -/
theorem Memory.wfFrom_cons {lo a : Nat} {b : Byte} {m : Memory} :
    Memory.wfFrom lo ((a, b) :: m) = true ↔
      lo ≤ a ∧ a < 4096 ∧ b ≠ Memory.initial a ∧ Memory.wfFrom (a + 1) m = true := by
  simp [Memory.wfFrom, and_assoc]

@[simp] theorem Memory.read_cons_self (a : Nat) (b : Byte) (m : Memory) :
    Memory.read ((a, b) :: m) a = b := if_pos rfl

theorem Memory.read_cons_ne {a a' : Nat} (h : a' ≠ a) (b : Byte) (m : Memory) :
    Memory.read ((a, b) :: m) a' = m.read a' := if_neg h

/-- A listed byte differs from the initial one, so a memory whose cells all stand above that address reads
another byte there. -/
theorem Memory.read_first_ne {lo lo' a : Nat} {b : Byte} {m m' : Memory}
    (h : Memory.wfFrom lo ((a, b) :: m) = true) (h' : Memory.wfFrom lo' m' = true) (hlt : a < lo') :
    Memory.read ((a, b) :: m) a ≠ m'.read a := by
  obtain ⟨-, -, hb, -⟩ := Memory.wfFrom_cons.1 h
  rw [Memory.read_cons_self, Memory.read_below m' lo' a h' hlt]
  exact hb

/-- Canonical memories that read alike have the same first cell, and so on down the list. -/
theorem Memory.eq_of_read_eq : ∀ {m m' : Memory} {lo : Nat}, Memory.wfFrom lo m = true →
    Memory.wfFrom lo m' = true → (∀ a, a < 4096 → m.read a = m'.read a) → m = m'
  | [], [], _, _, _, _ => rfl
  | [], (c, d) :: m', _, _, h', hread => by
    obtain ⟨-, hc, -, -⟩ := Memory.wfFrom_cons.1 h'
    exact absurd (hread c hc).symm (Memory.read_first_ne h' (m' := []) rfl (Nat.lt_succ_self c))
  | (a, b) :: m, [], _, h, _, hread => by
    obtain ⟨-, ha, -, -⟩ := Memory.wfFrom_cons.1 h
    exact absurd (hread a ha) (Memory.read_first_ne h (m' := []) rfl (Nat.lt_succ_self a))
  | (a, b) :: m, (c, d) :: m', _, h, h', hread => by
    obtain ⟨-, ha, hb, hm⟩ := Memory.wfFrom_cons.1 h
    obtain ⟨-, hc, hd, hm'⟩ := Memory.wfFrom_cons.1 h'
    obtain hlt | rfl | hgt := Nat.lt_trichotomy a c
    · have hfrom : Memory.wfFrom c ((c, d) :: m') = true := Memory.wfFrom_cons.2 ⟨le_rfl, hc, hd, hm'⟩
      exact absurd (hread a ha) (Memory.read_first_ne h hfrom hlt)
    · have hbd : b = d := by simpa using hread a ha
      have htail : m = m' := Memory.eq_of_read_eq hm hm' fun x hx => by
        by_cases hxa : x = a
        · rw [hxa, Memory.read_below m (a + 1) a hm (Nat.lt_succ_self a),
            Memory.read_below m' (a + 1) a hm' (Nat.lt_succ_self a)]
        · simpa only [Memory.read_cons_ne hxa] using hread x hx
      rw [hbd, htail]
    · have hfrom : Memory.wfFrom a ((a, b) :: m) = true := Memory.wfFrom_cons.2 ⟨le_rfl, ha, hb, hm⟩
      exact absurd (hread c hc).symm (Memory.read_first_ne h' hfrom hgt)

/-- Settles O40: canonical from address 0 on is canonical. -/
theorem canonicalMemoriesThatReadAlikeAreEqual : Obligations.CanonicalMemoriesThatReadAlikeAreEqual :=
  fun _ _ h h' hread => Memory.eq_of_read_eq h h' hread

/-! ## The reset state -/

@[simp] theorem State.reg_reset (x : RegIdx) : State.reset.reg x = 0 := by
  simp [State.reg, State.reset]

@[simp] theorem State.key_reset (k : Key) : State.reset.key k = false := by
  simp [State.key, State.reset]

@[simp] theorem State.pixel_reset (r c : Nat) : State.reset.pixel r c = false :=
  FrameBuffer.get_blank r c

@[simp] theorem State.stack_reset (k : Nat) (h : k < 16) : State.reset.stack[k] = 0 := by
  simp [State.reset]

/-- Memory before any write: the font in 0 to 79, else 0 (R32). -/
theorem Memory.initial_eq (a : Nat) : Memory.initial a = if a < 80 then font.getD a 0 else 0 := by
  split
  · rfl
  · exact Memory.initial_above (by omega)

/-- Settles O18. -/
theorem stateAfterReset : Obligations.StateAfterReset := by
  unfold Obligations.StateAfterReset
  refine ⟨rfl, rfl, rfl, rfl, rfl, rfl, rfl, State.reg_reset, State.key_reset, State.pixel_reset,
    State.stack_reset, rfl, fun _ _ => rfl, rfl, rfl, fun a ha => Memory.initial_above ha⟩

/-- Settles O16: a `RESET` differs from the reset state in the bytes of the image, and the image ends inside
memory. -/
theorem resetLoadsTheImage : Obligations.ResetLoadsTheImage := by
  unfold Obligations.ResetLoadsTheImage
  intro s image hlen
  have hwf : imageWellFormed image = true := decide_eq_true hlen
  refine ⟨_, loadImage_eq_next.2 ⟨hwf, rfl⟩, rfl, rfl, State.reg_reset, rfl, rfl, State.stack_reset,
    State.pixel_reset, rfl, rfl, State.key_reset, fun a _ => ?_⟩
  rw [Memory.read_writeBytes image [] _ a State.reset_mem_wf (image_fits hwf)]
  exact dite_congr rfl (fun _ => rfl) (fun _ => Memory.initial_eq a)

/-! ## The frame of every instruction (R24) -/

theorem agrees_fb (s : State) (fb : FrameBuffer) : AgreesOutside { fb := true } s { s with fb := fb } :=
  { AgreesOutside.refl { fb := true } s with fb := fun h => by cases h }

/-- The sample of the entropy input and the register it is written to (R98). -/
theorem agrees_sampleEntropy_setReg (s : State) (x : RegIdx) (b : Byte) :
    AgreesOutside { regs := [x], draws := true } s (s.sampleEntropy.2.setReg x b) :=
  { agrees_setReg s x b with draws := fun h => by cases h }

theorem agrees_setI_setVF (s : State) (w : Word) (f : Bool) :
    AgreesOutside { i := true, regs := [vfIdx] } s ((s.setI w).setVF f) :=
  { agrees_setReg s vfIdx (if f then 1 else 0) with i := fun h => by cases h }

theorem agrees_fb_setVF (s : State) (fb : FrameBuffer) (f : Bool) :
    AgreesOutside { fb := true, regs := [vfIdx] } s (State.setVF { s with fb := fb } f) :=
  { agrees_setReg s vfIdx (if f then 1 else 0) with fb := fun h => by cases h }

/-- A push writes the slot at `SP` and no other (R77). -/
theorem agrees_push_setPc {s s' : State} {w : Word} (h : s.push w = some s') (p : Word) :
    AgreesOutside { slots := [s.sp.val], sp := true, pc := true } s (s'.setPc p) := by
  obtain ⟨hfree, rfl⟩ := State.push_eq_some.1 h
  exact { AgreesOutside.refl { slots := [s.sp.val], sp := true, pc := true } s with
    pc := fun h => by cases h
    sp := fun h => by cases h
    slots := fun k hk hne => by
      have hne : s.sp.val ≠ k := by simpa [eq_comm] using hne
      simp [hne] }

theorem agrees_pop_setPc {s s' : State} {w : Word} (h : s.pop = some (w, s')) (p : Word) :
    AgreesOutside { sp := true, pc := true } s (s'.setPc p) := by
  obtain ⟨hocc, -, rfl⟩ := State.pop_eq_some.1 h
  exact { AgreesOutside.refl { sp := true, pc := true } s with
    pc := fun h => by cases h
    sp := fun h => by cases h }

theorem mem_regRangeIdx {x y : RegIdx} : y ∈ regRangeIdx x ↔ y.toNat ≤ x.toNat := by
  have hx := x.isLt
  simp only [regRangeIdx, List.mem_map, List.mem_range]
  constructor
  · rintro ⟨k, hk, rfl⟩
    rw [BitVec.toNat_ofNat, Nat.mod_eq_of_lt (by omega)]
    omega
  · intro h
    exact ⟨y.toNat, by omega, by simp⟩

/-- A load of a run of registers changes `V[0]` to `V[x]` and nothing else (R105). -/
theorem agrees_setRegsFrom (s : State) (x : RegIdx) {bytes : List Byte}
    (hlen : bytes.length = rangeLength x) :
    AgreesOutside { regs := regRangeIdx x } s (s.setRegsFrom 0 bytes) := by
  have hx := x.isLt
  unfold rangeLength at hlen
  rw [State.setRegsFrom_eq]
  refine agrees_regs fun y hy => ?_
  have hout : ¬ (0 ≤ y.toNat ∧ y.toNat < 0 + bytes.length) := by
    rw [mem_regRangeIdx] at hy; omega
  exact (State.reg_setRegsFrom bytes s 0 y (by omega)).trans (dif_neg hout)

/-- Every completed instruction is one of the shared updates, whose frame is its row's writes cell. -/
theorem exec_agreesOutside (i : Instr) {s t : State} (h : exec i s = .next t) :
    AgreesOutside (writeSet i s) s t := by
  cases i
  case ret =>
    obtain ⟨target, s', hpop, rfl⟩ := execRet_eq_next.1 h
    exact agrees_pop_setPc hpop target
  case call nnn =>
    obtain ⟨s', hpush, rfl⟩ := execCall_eq_next.1 h
    exact agrees_push_setPc hpush _
  case skp | sknp =>
    obtain ⟨k, -, rfl⟩ := skipIfKey_eq_next.1 h
    exact agrees_skipIf s _
  case drw x y n =>
    obtain ⟨fb, hit, rfl⟩ := execDrw_eq_next h
    exact agrees_fb_setVF s fb hit
  case stBcd x => exact agrees_memWrite (storeAtI_eq_next.1 h)
  case stRegs x =>
    rw [writeSet, ← length_regRange s x]
    exact agrees_memWrite (storeAtI_eq_next.1 h)
  case ldRegs x =>
    obtain ⟨bytes, hread, rfl⟩ := execLdRegs_eq_next.1 h
    obtain ⟨-, hbytes⟩ := State.memRead_eq_some.1 hread
    exact agrees_setRegsFrom s x (by simp [hbytes])
  all_goals obtain rfl := Host.Outcome.next.inj h
  case cls => exact agrees_fb s _
  case jp | jpV0 => exact agrees_setPc s _
  case seI | sneI | seR | sneR => exact agrees_skipIf s _
  case ldI | addI | ldR | or | and | xor | ldDt => exact agrees_setReg s _ _
  case addR | sub | subn => exact agrees_setRegThenFlag s _ _ _
  case shr | shl => exact agrees_setFlagThenShift s _ _ _
  case ldIdx | ldFont => exact agrees_setI s _
  case rnd x nn => exact agrees_sampleEntropy_setReg s x _
  case ldKey x => exact agrees_setWait s _
  case stDt x => exact agrees_setDt s _
  case stSt x => exact agrees_setSt s _
  case addIdx x => exact agrees_setI_setVF s _ _

/-- Settles O49. -/
theorem everyInstructionKeepsItsFrame : Obligations.EveryInstructionKeepsItsFrame :=
  fun i _ _ h => exec_agreesOutside i h

/-! ## `VF` as the flag (R11) -/

/-- `VF` is in the writes cell of the flag instructions and of those whose destination it is, and of no
other. -/
theorem vfIdx_mem_writeSet_iff (i : Instr) (s : State) :
    vfIdx ∈ (writeSet i s).regs ↔ writesFlag i = true ∨ destIsVF i = true := by
  cases i
  case ldRegs x =>
    have hx := x.isLt
    have hvf : vfIdx ∈ regRangeIdx x ↔ x = vfIdx := by
      rw [mem_regRangeIdx]; bv_omega
    simpa [writeSet, writesFlag, destIsVF] using hvf
  case ldI | addI | ldR | or | and | xor | rnd | ldDt =>
    simpa [writeSet, writesFlag, destIsVF] using eq_comm
  all_goals simp [writeSet, writesFlag, destIsVF]

@[simp] theorem shrOut_toNat (b : Byte) : (shrOut b).toNat = b.toNat % 2 := by
  simp [shrOut]

@[simp] theorem shlOut_toNat (b : Byte) : (shlOut b).toNat = b.toNat / 128 := by
  simp [shlOut, Nat.shiftRight_eq_div_pow]

@[simp] theorem shrResult_toNat (b : Byte) : (shrResult b).toNat = b.toNat / 2 := by
  simp [shrResult, Nat.shiftRight_eq_div_pow]

theorem byte_eq_zero_or_one {b : Byte} (h : b.toNat < 2) : b = 0 ∨ b = 1 := by bv_omega

theorem State.reg_setVF_self_zero_or_one (s : State) (f : Bool) :
    (s.setVF f).reg vfIdx = 0 ∨ (s.setVF f).reg vfIdx = 1 := by
  rw [State.reg_setVF_self]
  cases f with
  | false => exact .inl rfl
  | true => exact .inr rfl

/-- `8xy6` leaves the bit shifted out, and for `x` = F that bit shifted away, so 0 (R93, R96). -/
theorem reg_vf_setFlagThenShift_shr_zero_or_one (s : State) (x : RegIdx) :
    (s.setFlagThenShift x shrOut shrResult).reg vfIdx = 0 ∨
      (s.setFlagThenShift x shrOut shrResult).reg vfIdx = 1 := by
  apply byte_eq_zero_or_one
  rw [State.reg_setFlagThenShift]
  by_cases hx : x = vfIdx
  · rw [if_pos hx.symm, if_pos hx, shrResult_toNat, shrOut_toNat]
    omega
  · rw [if_neg (Ne.symm hx), if_pos rfl, shrOut_toNat]
    omega

/-- `8xyE` with `x` other than F leaves the bit shifted out (R95). -/
theorem reg_vf_setFlagThenShift_shl_zero_or_one (s : State) {x : RegIdx} (hx : x ≠ vfIdx) :
    (s.setFlagThenShift x shlOut shlResult).reg vfIdx = 0 ∨
      (s.setFlagThenShift x shlOut shlResult).reg vfIdx = 1 := by
  have hlt := (s.reg x).isLt
  apply byte_eq_zero_or_one
  rw [State.reg_setFlagThenShift, if_neg (Ne.symm hx), if_pos rfl, shlOut_toNat]
  omega

/-- `8FyE` leaves the flag doubled (R95, R96). -/
theorem reg_vf_setFlagThenShift_shl_zero_or_two (s : State) :
    (s.setFlagThenShift vfIdx shlOut shlResult).reg vfIdx = 0 ∨
      (s.setFlagThenShift vfIdx shlOut shlResult).reg vfIdx = 2 := by
  have hlt := (s.reg vfIdx).isLt
  have hflag : shlOut (s.reg vfIdx) = 0 ∨ shlOut (s.reg vfIdx) = 1 :=
    byte_eq_zero_or_one (by rw [shlOut_toNat]; omega)
  rw [State.reg_setFlagThenShift, if_pos rfl, if_pos rfl]
  obtain h | h := hflag
  · rw [h]; exact .inl rfl
  · rw [h]; exact .inr rfl

/-- The seven flag instructions leave a flag of 0 or 1 in `VF`, but for `8FyE` (R11, R96). -/
theorem exec_flag_zero_or_one {i : Instr} {s t : State} (h : exec i s = .next t)
    (hflag : writesFlag i = true) (hshl : ∀ y, i ≠ .shl vfIdx y) :
    t.reg vfIdx = 0 ∨ t.reg vfIdx = 1 := by
  cases i
  case addR | sub | subn | addIdx =>
    obtain rfl := Host.Outcome.next.inj h
    exact State.reg_setVF_self_zero_or_one _ _
  case drw =>
    obtain ⟨fb, hit, rfl⟩ := execDrw_eq_next h
    exact State.reg_setVF_self_zero_or_one _ hit
  case shr x y =>
    obtain rfl := Host.Outcome.next.inj h
    exact reg_vf_setFlagThenShift_shr_zero_or_one s x
  case shl x y =>
    obtain rfl := Host.Outcome.next.inj h
    exact reg_vf_setFlagThenShift_shl_zero_or_one s fun hx => hshl y (hx ▸ rfl)
  all_goals cases hflag

/-- Settles O51: outside the flag instructions and without `VF` as destination, `VF` is in the frame. -/
theorem onlyFlagInstructionsWriteVF : Obligations.OnlyFlagInstructionsWriteVF := by
  unfold Obligations.OnlyFlagInstructionsWriteVF
  intro i s t h
  refine ⟨fun hflag hdest => ?_, exec_flag_zero_or_one h, fun y hi => ?_⟩
  · refine (exec_agreesOutside i h).regs vfIdx fun hmem => ?_
    rw [vfIdx_mem_writeSet_iff, hflag, hdest] at hmem
    simp at hmem
  · subst hi
    obtain rfl := Host.Outcome.next.inj h
    exact reg_vf_setFlagThenShift_shl_zero_or_two s

end Sys2Proof.Machine

/-! # Memory accesses: the bounds check, reads after writes, stores seen by the fetch

Proofs about spec/20_memory.md (R33, R36 to R41, R44). -/

namespace Sys2Proof.Machine

/-- A completed write leaves byte `k` at `a + k` (R37, R40). -/
theorem State.mem_read_of_memWrite {s t : State} {a : Nat} {bytes : List Byte} (hwf : s.mem.wf = true)
    (h : s.memWrite a bytes = some t) {k : Nat} (hk : k < bytes.length) :
    t.mem.read (a + k) = bytes[k] := by
  obtain ⟨hin, rfl⟩ := State.memWrite_eq_some.1 h
  have hfits : a + bytes.length ≤ 4096 := by omega
  simp [Memory.read_writeBytes bytes s.mem a (a + k) hwf hfits, hk]

/-- A completed write reads back (R40). -/
theorem State.memRead_of_memWrite {s t : State} {a : Nat} {bytes : List Byte} (hwf : s.mem.wf = true)
    (h : s.memWrite a bytes = some t) : t.memRead a bytes.length = some bytes := by
  have hin := (State.memWrite_eq_some.1 h).1
  refine State.memRead_eq_some.2 ⟨hin, List.ext_getElem (by simp) fun k hk _ => ?_⟩
  simp [State.mem_read_of_memWrite hwf h hk]

/-- Settles O39: the check sees the whole range first, and a write inside memory reads back within its frame. -/
theorem memoryAccessIsCheckedAndKept : Obligations.MemoryAccessIsCheckedAndKept := by
  unfold Obligations.MemoryAccessIsCheckedAndKept
  intro s a n bytes hwf
  refine ⟨⟨rfl, rfl⟩, fun _ _ => ?_, fun _ _ => ?_, fun _ hin => ?_⟩
  · rw [State.memRead_eq_none]; omega
  · rw [State.memWrite_eq_none]; omega
  · obtain ⟨t, hwrite⟩ : ∃ t, s.memWrite a bytes = some t :=
      ⟨_, State.memWrite_eq_some.2 ⟨by omega, rfl⟩⟩
    exact ⟨t, hwrite, State.memRead_of_memWrite hwf hwrite, agrees_memWrite hwrite⟩

/-- The run of registers `V[0]` to `V[x]` lists `V[j]` at place `j` (R104). -/
theorem State.getElem_regRange (s : State) (x j : RegIdx) (h : j.toNat < (s.regRange x).length) :
    (s.regRange x)[j.toNat] = s.reg j := by
  simp [State.regRange]

/-- A completed `Fx55` leaves `V[j]`, for `j` up to `x`, at `I + j` (R104). -/
theorem mem_read_of_execStRegs {s t : State} {x j : RegIdx} (hwf : s.mem.wf = true)
    (h : exec (.stRegs x) s = .next t) (hj : j.toNat ≤ x.toNat) :
    t.mem.read (s.i.toNat + j.toNat) = s.reg j := by
  have hwrite : s.memWrite s.base (s.regRange x) = some t := storeAtI_eq_next.1 h
  have hlt : j.toNat < (s.regRange x).length := by rw [length_regRange]; omega
  exact (State.mem_read_of_memWrite hwf hwrite hlt).trans (s.getElem_regRange x j hlt)

/-- A completed `Fx55` stored all its bytes inside memory (R104, R37). -/
theorem execStRegs_fits {s t : State} {x : RegIdx} (h : exec (.stRegs x) s = .next t) :
    s.i.toNat + x.toNat ≤ 4095 := by
  obtain ⟨hin, -⟩ := State.memWrite_eq_some.1 (storeAtI_eq_next.1 h)
  rw [length_regRange, State.base] at hin
  omega

/-- Settles O38: the fetch reads memory as the store left it, which holds the two registers side by side. -/
theorem storedBytesAreFetched : Obligations.StoredBytesAreFetched := by
  unfold Obligations.StoredBytesAreFetched
  intro x s t j k hwf h hk hadj
  have hfits := execStRegs_fits h
  have hlow := mem_read_of_execStRegs hwf h (j := j) (by omega)
  have hhigh := mem_read_of_execStRegs hwf h hk
  have hnext : s.i.toNat + j.toNat + 1 = s.i.toNat + k.toNat := by omega
  exact State.fetchWord_eq_some.2 ⟨by omega, by rw [hnext, hlow, hhigh]⟩

end Sys2Proof.Machine

/-! # Encoding: the decoder and the encoder agree, and both follow the table of rows

Proofs about spec/30_encoding.md (R45 to R55): decoding undoes encoding, encoding undoes decoding, and the
decoder answers exactly the rows of R50. -/

namespace Sys2Proof

/-! ## Decoding undoes encoding -/

/-- The word of an instruction decodes to it: the opcode picks the group, the function code the row, and
the fields hold the operands (R46, R49). -/
theorem decodeWord_encodeWord (i : Instr) : decodeWord (encodeWord i) = some i := by
  cases i
  case cls | ret => rfl
  case ldR | or | and | xor | addR | sub | shr | subn | shl =>
    simp [encodeWord, decodeWord, decodeGroup8]
  case skp | sknp => simp [encodeWord, decodeWord, decodeGroupE]
  case ldDt | ldKey | stDt | stSt | addIdx | ldFont | stBcd | stRegs | ldRegs =>
    simp [encodeWord, decodeWord, decodeGroupF]
  case jp | call | ldIdx | jpV0 => simp [encodeWord, decodeWord]
  case seI | sneI | ldI | addI | rnd => simp [encodeWord, decodeWord]
  case seR | sneR | drw => simp [encodeWord, decodeWord]

/-- The decoder reads the first two bytes as one word, high byte first, and leaves the rest (R33, R45). -/
theorem decode_of_decodeWord {hi lo : Byte} {i : Instr} (rest : List Byte)
    (h : decodeWord (wordOfBytes hi lo) = some i) : decode (hi :: lo :: rest) = .ok (i, rest) := by
  simp [decode, h]

/-- Settles O1: the two bytes compose to the instruction's word, and that word decodes to it. -/
theorem decodeOfEncodeIsTheInstruction : Obligations.DecodeOfEncodeIsTheInstruction := by
  unfold Obligations.DecodeOfEncodeIsTheInstruction
  intro i rest
  exact decode_of_decodeWord rest (by rw [wordOfBytes_bytes, decodeWord_encodeWord])

/-! ## Encoding undoes decoding -/

/-- A word is the ADDR form of its opcode and its other field. -/
theorem formAddr_of_fields {w : Word} {op : BitVec 4} (hop : fieldOp w = op) :
    formAddr op (fieldNNN w) = w := by
  rw [← hop, formAddr_fields]

/-- A word is the REG_IMM form of its opcode and its other fields. -/
theorem formRegImm_of_fields {w : Word} {op : BitVec 4} {nn : Byte} (hop : fieldOp w = op)
    (hnn : fieldNN w = nn) : formRegImm op (fieldX w) nn = w := by
  rw [← hop, ← hnn, formRegImm_fields]

/-- A word is the REG_REG form of its opcode, its function code and its other fields. -/
theorem formRegReg_of_fields {w : Word} {op : BitVec 4} {n : Nibble} (hop : fieldOp w = op)
    (hn : fieldN w = n) : formRegReg op (fieldX w) (fieldY w) n = w := by
  rw [← hop, ← hn, formRegReg_fields]

/-- Opcode 0: the whole word is the function code (R49). -/
theorem encodeWord_of_decodeGroup0 {w : Word} {i : Instr} :
    decodeGroup0 w = some i → encodeWord i = w := by
  fun_cases decodeGroup0 w
  next hcls => rintro ⟨⟩; exact hcls.symm
  next hret => rintro ⟨⟩; exact hret.symm
  next => nofun

/-- Opcode 8: the function code is `n`, and `y` is kept whatever it is (R49, R52). -/
theorem encodeWord_of_decodeGroup8 {w : Word} {i : Instr} (hop : fieldOp w = 0x8#4) :
    decodeGroup8 w = some i → encodeWord i = w := by
  fun_cases decodeGroup8 w
  case case10 => nofun
  all_goals
    rintro ⟨⟩
    exact formRegReg_of_fields hop ‹fieldN w = _›

/-- Opcode E: the function code is `nn` (R49). -/
theorem encodeWord_of_decodeGroupE {w : Word} {i : Instr} (hop : fieldOp w = 0xE#4) :
    decodeGroupE w = some i → encodeWord i = w := by
  fun_cases decodeGroupE w
  case case3 => nofun
  all_goals
    rintro ⟨⟩
    exact formRegImm_of_fields hop ‹fieldNN w = _›

/-- Opcode F: the function code is `nn` (R49). -/
theorem encodeWord_of_decodeGroupF {w : Word} {i : Instr} (hop : fieldOp w = 0xF#4) :
    decodeGroupF w = some i → encodeWord i = w := by
  fun_cases decodeGroupF w
  case case10 => nofun
  all_goals
    rintro ⟨⟩
    exact formRegImm_of_fields hop ‹fieldNN w = _›

/-- A word that decodes is its instruction's word, opcode by opcode (R46, R49). -/
theorem encodeWord_of_decodeWord {w : Word} {i : Instr} :
    decodeWord w = some i → encodeWord i = w := by
  fun_cases decodeWord w
  next => exact encodeWord_of_decodeGroup0
  next h1 => rintro ⟨⟩; exact formAddr_of_fields h1
  next h2 => rintro ⟨⟩; exact formAddr_of_fields h2
  next h3 => rintro ⟨⟩; exact formRegImm_of_fields h3 rfl
  next h4 => rintro ⟨⟩; exact formRegImm_of_fields h4 rfl
  next h5 hn => rintro ⟨⟩; exact formRegReg_of_fields h5 hn
  next => nofun
  next h6 => rintro ⟨⟩; exact formRegImm_of_fields h6 rfl
  next h7 => rintro ⟨⟩; exact formRegImm_of_fields h7 rfl
  next h8 => exact encodeWord_of_decodeGroup8 h8
  next h9 hn => rintro ⟨⟩; exact formRegReg_of_fields h9 hn
  next => nofun
  next hA => rintro ⟨⟩; exact formAddr_of_fields hA
  next hB => rintro ⟨⟩; exact formAddr_of_fields hB
  next hC => rintro ⟨⟩; exact formRegImm_of_fields hC rfl
  next hD => rintro ⟨⟩; exact formRegReg_of_fields hD rfl
  next hE => exact encodeWord_of_decodeGroupE hE
  next =>
    have hF : fieldOp w = 0xF#4 := by bv_omega
    exact encodeWord_of_decodeGroupF hF

/-- Settles O2, by the opcode of the word. -/
theorem encodeOfDecodeIsTheWord : Obligations.EncodeOfDecodeIsTheWord := by
  unfold Obligations.EncodeOfDecodeIsTheWord
  exact fun w i h => encodeWord_of_decodeWord h

/-! ## The decoder and the table of rows -/

/-- Every instruction's word meets its row (R49). -/
theorem row_covers_encodeWord (i : Instr) : i.row.covers (encodeWord i) = true := by
  cases i
  case cls | ret => rfl
  case jp nnn | call nnn | ldIdx nnn | jpV0 nnn => exact formAddr_covers _ _ nnn
  case seI x nn | sneI x nn | ldI x nn | addI x nn | rnd x nn => exact formRegImm_covers _ _ x nn
  case drw x y n => exact formRegRegN_covers _ _ x y n
  case seR x y | sneR x y | ldR x y | or x y | and x y | xor x y => exact formRegReg_covers _ _ x y _
  case addR x y | sub x y | shr x y | subn x y | shl x y => exact formRegReg_covers _ _ x y _
  all_goals exact formRegFn_covers _ _ _ _

/-- The table lists the rows in the order of the instructions (R50). -/
theorem opTable_getElem? (i : Instr) : opTable[i.ctorIdx]? = some i.row := by
  cases i <;> rfl

theorem row_mem_opTable (i : Instr) : i.row ∈ opTable :=
  List.mem_of_getElem? (opTable_getElem? i)

/-- The rows of the table are the instructions' rows. -/
theorem mem_opTable_iff {r : OpRow} : r ∈ opTable ↔ ∃ i : Instr, i.row = r := by
  constructor
  · intro h
    obtain ⟨i, -, hi⟩ := List.mem_map.1 h
    exact ⟨i, hi⟩
  · rintro ⟨i, rfl⟩
    exact row_mem_opTable i

theorem covers_iff {r : OpRow} {w : Word} : r.covers w = true ↔ w &&& r.mask = r.pat := beq_iff_eq

/-- A word that meets a row has the row's bits in every slice that the row decodes whole. -/
theorem extract_of_covers {r : OpRow} {w : Word} {k n : Nat} (h : r.covers w = true)
    (hm : r.mask.extractLsb' k n = BitVec.allOnes n) : w.extractLsb' k n = r.pat.extractLsb' k n := by
  rw [← covers_iff.1 h, BitVec.extractLsb'_and, hm, BitVec.and_allOnes]

/-- Only the match itself meets a row that decodes the whole word. -/
theorem eq_pat_of_covers {r : OpRow} {w : Word} (h : r.covers w = true)
    (hm : r.mask = BitVec.allOnes 16) : w = r.pat := by
  rw [← covers_iff.1 h, hm, BitVec.and_allOnes]

/-- A word that meets an instruction's row decodes to an instruction of that row (R49). -/
theorem decodeWord_of_covers {i : Instr} {w : Word} (h : i.row.covers w = true) :
    ∃ j, decodeWord w = some j ∧ j.row = i.row := by
  cases i
  case cls | ret =>
    rw [eq_pat_of_covers h rfl]
    exact ⟨_, rfl, rfl⟩
  all_goals
    simp only [Instr.row] at h ⊢
    have hop : fieldOp w = _ := extract_of_covers h rfl
  case ldR | or | and | xor | addR | sub | shr | subn | shl =>
    have hn : fieldN w = _ := extract_of_covers h rfl
    simp [decodeWord, decodeGroup8, hop, hn]
  case seR | sneR =>
    have hn : fieldN w = _ := extract_of_covers h rfl
    simp [decodeWord, hop, hn]
  case skp | sknp =>
    have hnn : fieldNN w = _ := extract_of_covers h rfl
    simp [decodeWord, decodeGroupE, hop, hnn]
  case ldDt | ldKey | stDt | stSt | addIdx | ldFont | stBcd | stRegs | ldRegs =>
    have hnn : fieldNN w = _ := extract_of_covers h rfl
    simp [decodeWord, decodeGroupF, hop, hnn]
  all_goals simp [decodeWord, hop]

/-- A row of the table that a word meets is the row of the instruction it decodes to, so a word meets at
most one row (R49). -/
theorem row_of_covers {r : OpRow} {w : Word} (hr : r ∈ opTable) (h : r.covers w = true) :
    ∃ j, decodeWord w = some j ∧ j.row = r := by
  obtain ⟨i, rfl⟩ := mem_opTable_iff.1 hr
  exact decodeWord_of_covers h

/-- A word that decodes meets its instruction's row (R49). -/
theorem covers_of_decodeWord {w : Word} {i : Instr} (h : decodeWord w = some i) :
    i.row.covers w = true := by
  rw [← encodeWord_of_decodeWord h]
  exact row_covers_encodeWord i

/-- A word is unknown exactly when it meets no row (R51). -/
theorem decodeWord_eq_none_iff {w : Word} :
    decodeWord w = none ↔ ∀ r ∈ opTable, r.covers w = false := by
  constructor
  · intro hnone r hr
    by_contra hcov
    obtain ⟨j, hj, -⟩ := row_of_covers hr (Bool.eq_true_of_not_eq_false hcov)
    simp [hnone] at hj
  · intro hno
    by_contra hsome
    obtain ⟨i, hi⟩ := Option.ne_none_iff_exists'.1 hsome
    have hcov := covers_of_decodeWord hi
    simp [hno i.row (row_mem_opTable i)] at hcov

/-- Settles O3: the word of a decoded instruction meets its row, and every row that a word meets is the row
of what it decodes to. -/
theorem decodeFollowsMaskAndMatch : Obligations.DecodeFollowsMaskAndMatch := by
  unfold Obligations.DecodeFollowsMaskAndMatch
  intro w
  refine ⟨fun i hi => ⟨row_mem_opTable i, covers_of_decodeWord hi⟩, decodeWord_eq_none_iff, ?_⟩
  intro r hr q hq hrw hqw
  obtain ⟨i, hi, rfl⟩ := row_of_covers hr hrw
  obtain ⟨j, hj, rfl⟩ := row_of_covers hq hqw
  rw [Option.some.inj (hi.symm.trans hj)]

/-! ## Words written out -/

/-- Settles O4: each known word is its instruction's encoding, written bit by bit. -/
theorem sampleWordsDecode : Obligations.SampleWordsDecode := by
  unfold Obligations.SampleWordsDecode
  exact ⟨rfl, decodeWord_encodeWord .ret, decodeWord_encodeWord (.call 0xABC),
    decodeWord_encodeWord (.seI 0xA 0x42), decodeWord_encodeWord (.subn 0xA 0xB),
    decodeWord_encodeWord (.shr 0xA 0xF), decodeWord_encodeWord (.jpV0 0x123),
    decodeWord_encodeWord (.drw 1 2 0xA), decodeWord_encodeWord (.skp 1),
    decodeWord_encodeWord (.ldRegs 1), by decide, by decide⟩

end Sys2Proof

/-! # Step and events: the stages of a `STEP`, the five events, the schedule, the observation

Proofs about spec/40_step_and_events.md (R61 to R72): which fault ends a `STEP`, what each event answers, what
the host has after it, and that a run of the machine is its schedule delivered event by event. -/

namespace Sys2Proof.Machine

/-! ## The fault that ends an instruction -/

theorem execRet_eq_fault {s : State} {f : Fault} :
    execRet s = .fault f ↔ s.sp.val = 0 ∧ f = .stackUnderflow (s.pc - 2) := by
  unfold execRet
  rw [← State.pop_eq_none]
  cases s.pop <;> simp [raise, eq_comm]

theorem execCall_eq_fault {nnn : Addr12} {s : State} {f : Fault} :
    execCall nnn s = .fault f ↔ s.sp.val = 16 ∧ f = .stackOverflow (s.pc - 2) := by
  unfold execCall
  rw [← State.push_eq_none (w := s.pc)]
  cases s.push s.pc <;> simp [raise, eq_comm]

theorem execDrw_eq_fault {x y : RegIdx} {n : Nibble} {s : State} {f : Fault} :
    execDrw x y n s = .fault f ↔
      ¬ (n.toNat = 0 ∨ s.i.toNat + n.toNat ≤ 4096) ∧ f = .outOfBoundsAccess s.i.toNat n.toNat := by
  unfold execDrw State.base
  rw [← State.memRead_eq_none]
  cases s.memRead s.i.toNat n.toNat <;> simp [raise, eq_comm]

theorem storeAtI_eq_fault {bytes : List Byte} {s : State} {f : Fault} :
    storeAtI bytes s = .fault f ↔
      ¬ (bytes.length = 0 ∨ s.i.toNat + bytes.length ≤ 4096) ∧
        f = .outOfBoundsAccess s.i.toNat bytes.length := by
  unfold storeAtI State.base
  rw [← State.memWrite_eq_none]
  cases s.memWrite s.i.toNat bytes <;> simp [raise, eq_comm]

theorem execLdRegs_eq_fault {x : RegIdx} {s : State} {f : Fault} :
    execLdRegs x s = .fault f ↔
      ¬ (rangeLength x = 0 ∨ s.i.toNat + rangeLength x ≤ 4096) ∧
        f = .outOfBoundsAccess s.i.toNat (rangeLength x) := by
  unfold execLdRegs State.base
  rw [← State.memRead_eq_none]
  cases s.memRead s.i.toNat (rangeLength x) <;> simp [raise, eq_comm]

theorem skipIfKey_eq_fault {x : RegIdx} {wanted : Bool} {s : State} {f : Fault} :
    skipIfKey x wanted s = .fault f ↔ 16 ≤ (s.reg x).toNat ∧ f = .keyIndexOutOfRange (s.reg x) := by
  unfold skipIfKey
  rw [← keyOperand_eq_none]
  cases keyOperand (s.reg x) <;> simp [raise, eq_comm]

/-- A fault under a condition, as an equation. -/
theorem ite_some_none_eq_some_iff {c : Prop} [Decidable c] {g f : Fault} :
    (if c then some g else none) = some f ↔ c ∧ f = g := by
  simp [eq_comm]

/-- An instruction raises the fault of its cause and no other (R130, R134). -/
theorem exec_eq_fault_iff {i : Instr} {s : State} {f : Fault} :
    exec i s = .fault f ↔ faultCause i s = some f := by
  cases i
  case ret => exact execRet_eq_fault.trans ite_some_none_eq_some_iff.symm
  case call nnn => exact execCall_eq_fault.trans ite_some_none_eq_some_iff.symm
  case drw x y n =>
    refine execDrw_eq_fault.trans (Iff.trans ?_ ite_some_none_eq_some_iff.symm)
    exact and_congr_left' (by omega)
  case stBcd x =>
    refine storeAtI_eq_fault.trans (Iff.trans ?_ ite_some_none_eq_some_iff.symm)
    rw [length_decimalDigits]
    exact and_congr_left' (by omega)
  case stRegs x =>
    refine storeAtI_eq_fault.trans (Iff.trans ?_ ite_some_none_eq_some_iff.symm)
    rw [length_regRange]
    exact and_congr_left' (by omega)
  case ldRegs x =>
    refine execLdRegs_eq_fault.trans (Iff.trans ?_ ite_some_none_eq_some_iff.symm)
    unfold rangeLength
    exact and_congr_left' (by omega)
  case skp | sknp => exact skipIfKey_eq_fault.trans ite_some_none_eq_some_iff.symm
  -- The rest complete in every state and have no cause.
  all_goals exact ⟨nofun, nofun⟩

/-! ## The stages of a `STEP` (R61, R62, R138) -/

theorem stepEvent_of_wait {s : State} {x : RegIdx} (h : s.wait = some x) : stepEvent s = .next s := by
  simp [stepEvent, h]

theorem stepEvent_of_running {s : State} (h : s.wait = none) : stepEvent s = runInstruction s := by
  simp [stepEvent, h]

/-- A fetch that is not wholly inside memory ends the `STEP`. -/
theorem runInstruction_of_fetchWord_eq_none {s : State} (h : s.fetchWord s.pc.toNat = none) :
    runInstruction s = .fault (.outOfBoundsAccess s.pc.toNat 2) := by
  simp [runInstruction, h, raise]

/-- A fetched word that is unknown ends the `STEP`. -/
theorem runInstruction_of_decodeWord_eq_none {s : State} {w : Word}
    (hfetch : s.fetchWord s.pc.toNat = some w) (hdecode : decodeWord w = none) :
    runInstruction s = .fault (.unknownOpcode w s.pc) := by
  simp [runInstruction, hfetch, hdecode, raise]

/-- A fetched word that decodes is executed behind the advance. -/
theorem runInstruction_of_decodeWord_eq_some {s : State} {w : Word} {i : Instr}
    (hfetch : s.fetchWord s.pc.toNat = some w) (hdecode : decodeWord w = some i) :
    runInstruction s = exec i s.advance := by
  simp [runInstruction, hfetch, hdecode]

/-- The three stages at which a `STEP` of a Running machine can fault. -/
theorem runInstruction_fault_cases {s : State} {f : Fault} (h : runInstruction s = .fault f) :
    f = .outOfBoundsAccess s.pc.toNat 2 ∨ (∃ w, f = .unknownOpcode w s.pc) ∨
      ∃ i, faultCause i s.advance = some f := by
  cases hfetch : s.fetchWord s.pc.toNat with
  | none =>
    rw [runInstruction_of_fetchWord_eq_none hfetch] at h
    exact .inl (Host.Outcome.fault.inj h).symm
  | some w =>
    cases hdecode : decodeWord w with
    | none =>
      rw [runInstruction_of_decodeWord_eq_none hfetch hdecode] at h
      exact .inr (.inl ⟨w, (Host.Outcome.fault.inj h).symm⟩)
    | some i =>
      rw [runInstruction_of_decodeWord_eq_some hfetch hdecode] at h
      exact .inr (.inr ⟨i, exec_eq_fault_iff.1 h⟩)

/-- When the host sends `STEP` to a Running machine, the step is the stages of R62 with the event taken. -/
theorem step_of_running {s : State} (hnext : s.nextEvent = .step) (hwait : s.wait = none) :
    step s = runInstruction s.popEvent := by
  rw [step, hnext]
  exact stepEvent_of_running (s := s.popEvent) hwait

/-- The step of a Running machine whose fetched word decodes. -/
theorem step_of_decodeWord_eq_some {s : State} {w : Word} {i : Instr} (hnext : s.nextEvent = .step)
    (hwait : s.wait = none) (hfetch : s.fetchWord s.pc.toNat = some w) (hdecode : decodeWord w = some i) :
    step s = exec i s.popEvent.advance :=
  (step_of_running hnext hwait).trans
    (runInstruction_of_decodeWord_eq_some (s := s.popEvent) hfetch hdecode)

/-- Settles O6: one stage after the other, each on the state with the event taken. -/
theorem stepFaultsInStageOrder : Obligations.StepFaultsInStageOrder := by
  unfold Obligations.StepFaultsInStageOrder
  intro s hnext hwait
  refine ⟨fun hout => ?_, fun hin w hw => ?_⟩
  · have hfetch : s.fetchWord s.pc.toNat = none := State.fetchWord_eq_none.2 hout
    rw [step_of_running hnext hwait]
    exact runInstruction_of_fetchWord_eq_none (s := s.popEvent) hfetch
  · have hfetch : s.fetchWord s.pc.toNat = some w := State.fetchWord_eq_some.2 ⟨hin, hw⟩
    refine ⟨fun hdecode => ?_, fun i f hdecode hcause => ?_⟩
    · rw [step_of_running hnext hwait]
      exact runInstruction_of_decodeWord_eq_none (s := s.popEvent) hfetch hdecode
    · rw [step_of_decodeWord_eq_some hnext hwait hfetch hdecode]
      exact exec_eq_fault_iff.2 hcause

/-- The decoder answers a two-byte list with the instruction of its word (R33, R45). -/
theorem decode_pair_eq_ok {hi lo : Byte} {i : Instr} :
    decode [hi, lo] = .ok (i, []) ↔ decodeWord (wordOfBytes hi lo) = some i := by
  cases h : decodeWord (wordOfBytes hi lo) <;> simp [decode, h]

/-- Settles O5: the two bytes at `PC` are the fetched word. -/
theorem stepRunsTheDecodedInstruction : Obligations.StepRunsTheDecodedInstruction := by
  unfold Obligations.StepRunsTheDecodedInstruction
  intro s i hnext hwait hpc hdecode
  have hfetch := (State.fetchWord_eq_some (s := s) (a := s.pc.toNat)).2 ⟨by omega, rfl⟩
  exact step_of_decodeWord_eq_some hnext hwait hfetch (decode_pair_eq_ok.1 hdecode)

/-! ## A placed word (notes/assumptions/7.md) -/

theorem State.placeWord_nextEvent (s : State) (w : Word) : (s.placeWord w).nextEvent = .step := by
  have hschedule : (s.placeWord w).schedule =
      if s.nextEvent = .step then s.schedule else .step :: s.schedule := rfl
  rw [State.nextEvent, hschedule]
  split
  · assumption
  · rfl

theorem State.placeWord_pc_le (s : State) (w : Word) : (s.placeWord w).pc.toNat ≤ 4094 := by
  unfold State.placeWord
  dsimp only
  split
  · have hin := (inBounds_iff _ _).1 ‹_›
    omega
  · decide

/-- The placed word is what the next fetch reads. -/
theorem State.fetchWord_placeWord {s : State} (hwf : s.mem.wf = true) (w : Word) :
    (s.placeWord w).fetchWord (s.placeWord w).pc.toNat = some w := by
  have hpc := s.placeWord_pc_le w
  have hread (a : Nat) := Memory.read_writeBytes [highByte w, lowByte w] s.mem
    (s.placeWord w).pc.toNat a hwf (Nat.add_le_add_right hpc 2)
  have hhigh : (s.placeWord w).mem.read (s.placeWord w).pc.toNat = highByte w :=
    (hread _).trans (by simp)
  have hlow : (s.placeWord w).mem.read ((s.placeWord w).pc.toNat + 1) = lowByte w :=
    (hread _).trans (by simp)
  exact State.fetchWord_eq_some.2 ⟨hpc, by rw [hhigh, hlow, wordOfBytes_bytes]⟩

/-- The table's bits decode as the word that they are. -/
theorem decodeWord_of_decodeTableWord {nbits w : Nat} {i : Instr} (h : decodeTableWord nbits w = some i) :
    decodeWord (BitVec.ofNat 16 (w % 2 ^ nbits)) = some i := by
  cases hd : decodeWord (BitVec.ofNat 16 (w % 2 ^ nbits)) with
  | none => simp [decodeTableWord, decode, hd] at h
  | some j => simpa [decodeTableWord, decode, hd] using h

/-- Settles O15. -/
theorem placedWordIsRunNext : Obligations.PlacedWordIsRunNext := by
  unfold Obligations.PlacedWordIsRunNext
  intro s w i hwf hdecode
  exact step_of_decodeWord_eq_some (s.placeWord_nextEvent _) rfl (State.fetchWord_placeWord hwf _)
    (decodeWord_of_decodeTableWord hdecode)

/-! ## What each event answers (R61 to R66) -/

/-- Settles O9. -/
theorem tickCountsBothTimersDown : Obligations.TickCountsBothTimersDown := by
  unfold Obligations.TickCountsBothTimersDown
  have saturates (b : Byte) : (countDown b).toNat = if b.toNat > 0 then b.toNat - 1 else 0 := by
    rw [countDown_toNat]
    split <;> omega
  intro s
  exact ⟨tickEvent s, rfl, saturates s.dt, saturates s.st,
    { agrees_setDt s (countDown s.dt) with st := fun h => by cases h }⟩

theorem keyDownEvent_of_wait {s : State} {x : RegIdx} (h : s.wait = some x) (k : Key) :
    keyDownEvent k s = ((s.setKey k true).setReg x (keyByte k)).setWait none := by
  simp [keyDownEvent, h]

theorem keyDownEvent_of_running {s : State} (h : s.wait = none) (k : Key) :
    keyDownEvent k s = s.setKey k true := by
  simp [keyDownEvent, h]

@[simp] theorem State.key_setKey_self (s : State) (k : Key) (d : Bool) : (s.setKey k d).key k = d := by
  simp [State.key_setKey]

@[simp] theorem keyByte_toNat (k : Key) : (keyByte k).toNat = k.toNat := by
  have := k.isLt
  simp only [keyByte, BitVec.toNat_setWidth]
  omega

@[simp] theorem keyDownEvent_key_self (s : State) (k : Key) : (keyDownEvent k s).key k = true := by
  cases hwait : s.wait with
  | none => simp [keyDownEvent_of_running hwait]
  | some x => simp [keyDownEvent_of_wait hwait]

/-- The end of a key wait writes the flag, the waiting register and `WAIT` (R65). -/
theorem agrees_setKey_setReg_setWait (s : State) (k : Key) (d : Bool) (x : RegIdx) (b : Byte)
    (w : Option RegIdx) :
    AgreesOutside { keys := [k], regs := [x], wait := true } s (((s.setKey k d).setReg x b).setWait w) :=
  { agrees_setKey s k d with
    regs := (agrees_setReg s x b).regs
    wait := fun h => by cases h }

/-- Settles O10, by whether a wait is on. -/
theorem keyDownSetsTheFlagAndEndsAWait : Obligations.KeyDownSetsTheFlagAndEndsAWait := by
  unfold Obligations.KeyDownSetsTheFlagAndEndsAWait
  intro s k
  refine ⟨keyDownEvent k s, rfl, keyDownEvent_key_self s k, fun x hwait => ?_, fun hwait => ?_⟩
  · rw [keyDownEvent_of_wait hwait]
    exact ⟨by simp, rfl, agrees_setKey_setReg_setWait s k true x _ none⟩
  · rw [keyDownEvent_of_running hwait]
    exact agrees_setKey s k true

/-- Settles O11. -/
theorem keyUpClearsTheFlagOnly : Obligations.KeyUpClearsTheFlagOnly := by
  unfold Obligations.KeyUpClearsTheFlagOnly
  exact fun s k => ⟨keyUpEvent k s, rfl, s.key_setKey_self k false, agrees_setKey s k false⟩

/-! ## What the host has after an event -/

/-- The result "no fault" is a transition of the machine. -/
theorem deliver_machine_eq_ok_none {e : Event} {s : State} {m : Holding} :
    deliver e (.machine s) = .ok (m, none) ↔ ∃ t, applyEvent e s = .next t ∧ m = .machine t := by
  constructor
  · intro h
    obtain ⟨s', t, hs, happly, rfl, -⟩ | ⟨_, _, -, -, -, -, hf⟩ | ⟨_, -, hf, -⟩ | ⟨-, -, hm, -⟩ :=
      deliver_cases h
    · cases hs
      exact ⟨t, happly, rfl⟩
    · cases hf
    · cases hf
    · cases hm
  · rintro ⟨t, happly, rfl⟩
    simp [deliver, happly]

/-- A sequence of events that begins without a fault is a transition and then the rest. -/
theorem runEvents_cons_machine_none {e : Event} {es : List Event} {s : State} {m : Holding}
    {fs : List (Option Fault)} :
    runEvents (e :: es) (.machine s) = .ok (m, none :: fs) ↔
      ∃ t, applyEvent e s = .next t ∧ runEvents es (.machine t) = .ok (m, fs) := by
  rw [runEvents_cons]
  constructor
  · rintro ⟨m₁, f, fs', hdeliver, hrest, hfs⟩
    cases hfs
    obtain ⟨t, happly, rfl⟩ := deliver_machine_eq_ok_none.1 hdeliver
    exact ⟨t, happly, hrest⟩
  · rintro ⟨t, happly, hrest⟩
    exact ⟨_, _, _, deliver_machine_eq_ok_none.2 ⟨t, happly, rfl⟩, hrest, rfl⟩

/-- Settles O8, by induction on the number of `STEP`s. -/
theorem stepsWhileWaitingDoNothing : Obligations.StepsWhileWaitingDoNothing := by
  unfold Obligations.StepsWhileWaitingDoNothing
  intro s x n hwait
  refine ⟨stepEvent_of_wait hwait, ?_⟩
  induction n with
  | zero => rfl
  | succ n ih => exact runEvents_cons_machine_none.2 ⟨s, stepEvent_of_wait hwait, ih⟩

/-- No instruction raises `ProgramTooLarge` (R137). -/
theorem faultCause_ne_programTooLarge (i : Instr) (s : State) (len : Nat) :
    faultCause i s ≠ some (.programTooLarge len) := by
  cases i <;> simp [faultCause]

/-- No `STEP` raises `ProgramTooLarge` (R137). -/
theorem stepEvent_ne_programTooLarge (s : State) (len : Nat) :
    stepEvent s ≠ .fault (.programTooLarge len) := by
  cases hwait : s.wait with
  | some x => rw [stepEvent_of_wait hwait]; nofun
  | none =>
    rw [stepEvent_of_running hwait]
    intro h
    obtain hf | ⟨w, hf⟩ | ⟨i, hcause⟩ := runInstruction_fault_cases h
    · cases hf
    · cases hf
    · exact faultCause_ne_programTooLarge i _ len hcause

/-- `ProgramTooLarge` is the fault of `RESET`, whose only one it is (R137). -/
theorem isReset_iff_of_applyEvent_eq_fault {e : Event} {s : State} {f : Fault}
    (h : applyEvent e s = .fault f) : isReset e = true ↔ ∃ len, f = .programTooLarge len := by
  cases e with
  | reset image => exact iff_of_true rfl ⟨_, (loadImage_eq_fault.1 h).2⟩
  | step => exact iff_of_false nofun fun ⟨len, hf⟩ => stepEvent_ne_programTooLarge s len (hf ▸ h)
  | tick => cases h
  | keyDown k => cases h
  | keyUp k => cases h

/-- Settles O12: a fault leaves the machine, unless it is `ProgramTooLarge`, which is a failed `RESET`'s. -/
theorem faultLeavesTheStateAsItWas : Obligations.FaultLeavesTheStateAsItWas := by
  unfold Obligations.FaultLeavesTheStateAsItWas
  intro e s m f h
  obtain ⟨-, -, -, -, -, hf⟩ | ⟨s', g, hs, happly, hg, rfl, hf⟩ | ⟨len, rfl, hf, happly⟩ | ⟨-, -, hm, -⟩ :=
    deliver_cases h
  · cases hf
  · cases hs
    cases hf
    refine ⟨happly, fun _ => rfl, fun hreset => ?_⟩
    obtain ⟨len, hlen⟩ := (isReset_iff_of_applyEvent_eq_fault happly).1 hreset
    exact absurd hlen (hg len)
  · cases hf
    have happly := happly s rfl
    have hreset := (isReset_iff_of_applyEvent_eq_fault happly).2 ⟨len, rfl⟩
    exact ⟨happly, fun hno => by simp [hreset] at hno, fun _ => ⟨rfl, len, rfl⟩⟩
  · cases hm

/-! ## Running over a schedule (R72; notes/assumptions/6.md) -/

theorem loadImage_withSchedule (es : List Event) (image : List Byte) (s : State) :
    loadImage image (s.withSchedule es) = Result.withSchedule (loadImage image s) es := by
  unfold loadImage
  split <;> rfl

theorem keyDownEvent_withSchedule (es : List Event) (k : Key) (s : State) :
    keyDownEvent k (s.withSchedule es) = (keyDownEvent k s).withSchedule es := by
  cases hwait : s.wait with
  | none =>
    rw [keyDownEvent_of_running hwait, keyDownEvent_of_running (s := s.withSchedule es) hwait]
    rfl
  | some x =>
    rw [keyDownEvent_of_wait hwait, keyDownEvent_of_wait (s := s.withSchedule es) hwait]
    rfl

/-- No event reads or writes the schedule. -/
theorem applyEvent_withSchedule (es : List Event) (e : Event) (s : State) :
    applyEvent e (s.withSchedule es) = Result.withSchedule (applyEvent e s) es := by
  cases e with
  | reset image => exact loadImage_withSchedule es image s
  | step => exact stepEvent_withSchedule es s
  | tick => rfl
  | keyDown k => exact congrArg Host.Outcome.next (keyDownEvent_withSchedule es k s)
  | keyUp k => rfl

/-- A transition leaves the schedule as it was. -/
theorem applyEvent_schedule {e : Event} {s t : State} (h : applyEvent e s = .next t) :
    t.schedule = s.schedule := by
  have hsame : applyEvent e s = Result.withSchedule (applyEvent e s) s.schedule :=
    applyEvent_withSchedule s.schedule e s
  rw [h] at hsame
  have htail : t = t.withSchedule s.schedule := Host.Outcome.next.inj hsame
  exact (congrArg State.schedule htail :)

/-- The step with a schedule that begins with `e`: the event's transition, with the rest of the schedule. -/
theorem step_withSchedule_cons (e : Event) (es : List Event) (s : State) :
    step (s.withSchedule (e :: es)) = Result.withSchedule (applyEvent e s) es :=
  applyEvent_withSchedule es e s

/-- A run of a machine that does not stop is a step and then the rest. -/
theorem run_succ_eq_next {M : Host.Core} {n : Nat} {s u : M.State} :
    M.run (n + 1) s = .next u ↔ ∃ t, M.step s = .next t ∧ M.run n t = .next u := by
  rw [Host.Core.run]
  cases M.step s <;> simp

/-- A run over a schedule that begins with `e`, when it does not stop, is the transition of `e` and then the
run over the rest. -/
theorem run_succ_withSchedule_cons {n : Nat} {e : Event} {es : List Event} {s u : State} :
    Host.Core.run Sys2Proof.core (n + 1) (s.withSchedule (e :: es)) = .next u ↔
      ∃ t, applyEvent e s = .next t ∧ Host.Core.run Sys2Proof.core n (t.withSchedule es) = .next u := by
  refine (run_succ_eq_next (M := Sys2Proof.core)).trans ?_
  show (∃ t : State, step (s.withSchedule (e :: es)) = .next t ∧ _) ↔ _
  rw [step_withSchedule_cons]
  cases applyEvent e s <;> simp [Result.withSchedule]

/-- Settles O14, by induction on the schedule: the first step is the first event's transition, which leaves
the rest of the schedule to the steps after it. -/
theorem runFollowsTheSchedule : Obligations.RunFollowsTheSchedule := by
  unfold Obligations.RunFollowsTheSchedule
  intro es
  induction es with
  | nil =>
    intro s u hs
    have hself : s.withSchedule [] = s := by rw [← hs]; rfl
    calc Host.Outcome.next (s.withSchedule []) = .next u
      _ ↔ s = u := by rw [Host.Outcome.next.injEq, hself]
      _ ↔ runEvents [] (.machine s) = .ok (.machine u, []) := by simp [runEvents]
  | cons e es ih =>
    intro s u hs
    calc Host.Core.run Sys2Proof.core (es.length + 1) (s.withSchedule (e :: es)) = .next u
      _ ↔ ∃ t, applyEvent e s = .next t ∧
            Host.Core.run Sys2Proof.core es.length (t.withSchedule es) = .next u :=
        run_succ_withSchedule_cons
      _ ↔ ∃ t, applyEvent e s = .next t ∧
            runEvents es (.machine t) = .ok (.machine u, List.replicate es.length none) :=
        exists_congr fun t => and_congr_right fun happly =>
          ih t u ((applyEvent_schedule happly).trans hs)
      _ ↔ _ := runEvents_cons_machine_none.symm

/-! ## The framebuffer observation (R68) -/

/-- The row-major listing of a table of `m` rows of `n` entries holds entry `(r, c)` at place `r * n + c`. -/
theorem getElem?_flatMap_range {α : Type} (f : Nat → Nat → α) {n c : Nat} (hc : c < n) : ∀ {m r : Nat},
    r < m → ((List.range m).flatMap fun r => (List.range n).map (f r))[r * n + c]? = some (f r c)
  | m + 1, r, hr => by
    have hlen : ((List.range m).flatMap fun r => (List.range n).map (f r)).length = m * n := by simp
    rw [List.range_succ, List.flatMap_append, List.flatMap_singleton]
    obtain hlt | rfl := Nat.lt_succ_iff_lt_or_eq.1 hr
    · have hle : (r + 1) * n ≤ m * n := Nat.mul_le_mul_right n hlt
      rw [List.getElem?_append_left (by rw [hlen]; linarith), getElem?_flatMap_range f hc hlt]
    · rw [List.getElem?_append_right (by rw [hlen]; omega), hlen, Nat.add_sub_cancel_left]
      simp [hc]

/-- Settles O19. -/
theorem framebufferListsEveryPixelRowMajor : Obligations.FramebufferListsEveryPixelRowMajor := by
  unfold Obligations.FramebufferListsEveryPixelRowMajor
  intro s
  refine ⟨by simp [framebuffer], fun r c hr hc => ?_⟩
  exact getElem?_flatMap_range (fun r c => (r, c, s.pixel r c)) hc hr

end Sys2Proof.Machine

/-! # Control transfer: return, jump, call, indexed jump and the register skips

Proofs about spec/41_flow.md (R75 to R84): where each transfer leaves `PC`, that a return undoes a call, and
that a target outside memory faults at the next fetch only. -/

namespace Sys2Proof.Machine

/-! ## A target is checked when it is fetched from (R84) -/

/-- A `STEP` from 4095 on faults at its fetch (R62, R84). -/
theorem stepEvent_of_pc_out_of_bounds {s : State} (hwait : s.wait = none) (hpc : 4095 ≤ s.pc.toNat) :
    stepEvent s = .fault (.outOfBoundsAccess s.pc.toNat 2) :=
  (stepEvent_of_running hwait).trans
    (runInstruction_of_fetchWord_eq_none (State.fetchWord_eq_none.2 hpc))

/-! ## Call and return (R75, R77) -/

/-- With a slot free, `2nnn` completes on the pushed stack (R77). -/
theorem exec_call_of_free {s : State} (hfree : s.sp.val < 16) (nnn : Addr12) :
    exec (.call nnn) s = .next (State.setPc
      { s with stack := s.stack.set s.sp.val s.pc, sp := ⟨s.sp.val + 1, by omega⟩ } (addrOperand nnn)) :=
  execCall_eq_next.2 ⟨_, State.push_eq_some.2 ⟨hfree, rfl⟩, rfl⟩

/-- With a slot occupied, `00EE` completes on the popped stack (R75). -/
theorem exec_ret_of_occupied {s : State} (hocc : 0 < s.sp.val) :
    exec .ret s = .next (State.setPc { s with sp := ⟨s.sp.val - 1, by omega⟩ } s.stack[s.sp.val - 1]) :=
  execRet_eq_next.2 ⟨_, _, State.pop_eq_some.2 ⟨hocc, rfl, rfl⟩, rfl⟩

/-- A pop undoes a push, wherever `PC` has gone meanwhile: it gives the pushed word and the old `SP`, and the
slot keeps its content (R15). -/
theorem State.pop_setPc_of_push {s t : State} {w : Word} (h : s.push w = some t) (p : Word) :
    (t.setPc p).pop = some (w, { t.setPc p with sp := s.sp }) := by
  obtain ⟨hfree, rfl⟩ := State.push_eq_some.1 h
  exact State.pop_eq_some.2 ⟨Nat.succ_pos _, by simp, rfl⟩

/-- A `00EE` right behind a completed `2nnn` completes and resumes at the pushed address, with the old
`SP` (R75, R77). -/
theorem exec_ret_of_exec_call {nnn : Addr12} {s t : State} (h : exec (.call nnn) s = .next t) :
    exec .ret t = .next (State.setPc { t with sp := s.sp } s.pc) := by
  obtain ⟨s', hpush, rfl⟩ := execCall_eq_next.1 h
  exact execRet_eq_next.2 ⟨_, _, State.pop_setPc_of_push hpush _, rfl⟩

/-- Settles O23: the call's frame, with `PC` and `SP` back as they were. -/
theorem retAfterCallResumes : Obligations.RetAfterCallResumes := by
  unfold Obligations.RetAfterCallResumes
  intro nnn s t h
  have hframe : AgreesOutside { slots := [s.sp.val], sp := true, pc := true } s t :=
    exec_agreesOutside (.call nnn) h
  exact ⟨_, exec_ret_of_exec_call h, rfl, rfl, { hframe with pc := fun _ => rfl, sp := fun _ => rfl }⟩

/-- Settles O20, by whether a slot is occupied; the range of the target is the invariant's for the top slot. -/
theorem retPopsIntoPc : Obligations.RetPopsIntoPc := by
  unfold Obligations.RetPopsIntoPc
  refine ⟨decodeWord_encodeWord .ret, fun s => ⟨fun hocc => ?_, fun hempty => ?_⟩⟩
  · have hret := exec_ret_of_occupied hocc
    exact ⟨_, hret, rfl, rfl, fun hs => hs.slots (s.sp.val - 1) (by omega) (by omega),
      fun hpc hwait => stepEvent_of_pc_out_of_bounds hwait hpc, exec_agreesOutside .ret hret⟩
  · exact execRet_eq_fault.2 ⟨hempty, rfl⟩

/-- Settles O22, by whether a slot is free. -/
theorem callPushesTheReturnAddress : Obligations.CallPushesTheReturnAddress := by
  unfold Obligations.CallPushesTheReturnAddress
  intro nnn s
  refine ⟨decodeWord_encodeWord (.call nnn), fun hfree => ?_, fun hfull => ?_⟩
  · have hcall := exec_call_of_free hfree nnn
    exact ⟨_, hcall, by simp, rfl, addrOperand_toNat nnn, ⟨_, exec_ret_of_exec_call hcall, rfl⟩,
      exec_agreesOutside (.call nnn) hcall⟩
  · exact execCall_eq_fault.2 ⟨hfull, rfl⟩

/-! ## Jumps (R76, R78) -/

/-- A jump stored at its own address is a fixed point of `STEP` (R76). -/
theorem stepEvent_of_self_jump {nnn : Addr12} {s : State} (hwait : s.wait = none)
    (hpc : s.pc = addrOperand nnn) (hfetch : s.fetchWord s.pc.toNat = some (encodeWord (.jp nnn))) :
    stepEvent s = .next s :=
  calc stepEvent s
    _ = exec (.jp nnn) s.advance := (stepEvent_of_running hwait).trans
          (runInstruction_of_decodeWord_eq_some hfetch (decodeWord_encodeWord _))
    _ = .next (s.advance.setPc (addrOperand nnn)) := rfl
    _ = .next s := by rw [← hpc]; rfl

/-- Settles O21. -/
theorem jpSetsPc : Obligations.JpSetsPc := by
  unfold Obligations.JpSetsPc
  intro nnn s
  refine ⟨decodeWord_encodeWord (.jp nnn), ⟨s.setPc (addrOperand nnn), rfl, addrOperand_toNat nnn,
    agrees_setPc s _, ?_⟩, fun hwait hpc hfetch => ?_⟩
  · rintro rfl hwait
    exact stepEvent_of_pc_out_of_bounds (s := s.setPc (addrOperand 0xFFF)) hwait
      (show 4095 ≤ (addrOperand 0xFFF).toNat by decide)
  · have hself : s.pc = addrOperand nnn := BitVec.eq_of_toNat_eq (hpc.trans (addrOperand_toNat nnn).symm)
    exact stepEvent_of_self_jump hwait hself hfetch

/-- The 16-bit sum of `Bnnn` does not wrap (R78). -/
theorem jpV0_target_toNat (nnn : Addr12) (s : State) :
    (addrOperand nnn + s.regZext 0).toNat = nnn.toNat + (s.reg 0).toNat := by
  have hn := nnn.isLt
  have hv := (s.reg 0).isLt
  rw [BitVec.toNat_add, addrOperand_toNat, State.regZext_toNat]
  omega

/-- Settles O24. -/
theorem jpV0AddsV0 : Obligations.JpV0AddsV0 := by
  unfold Obligations.JpV0AddsV0
  intro nnn s
  exact ⟨decodeWord_encodeWord (.jpV0 nnn), s.setPc (addrOperand nnn + s.regZext 0), rfl,
    jpV0_target_toNat nnn s, jpV0_target_le nnn s, agrees_setPc s _,
    fun hpc hwait => stepEvent_of_pc_out_of_bounds hwait hpc⟩

/-! ## The register skips (R79 to R83) -/

/-- An instruction that is a skip on a test of `P` changes `PC` alone, by 2 exactly when `P` holds (R79). -/
theorem exec_skip {i : Instr} {s : State} {c : Bool} {P : Prop} [Decidable P]
    (hexec : exec i s = .next (s.skipIf c)) (hc : c = true ↔ P) :
    ∃ t, exec i s = .next t ∧ AgreesOutside { pc := true } s t ∧
      t.pc = if P then s.pc + 2 else s.pc := by
  refine ⟨_, hexec, agrees_skipIf s c, ?_⟩
  rw [State.skipIf_eq, State.setPc_pc]
  exact if_congr hc rfl rfl

/-- In the groups 5 and 9 every low nibble but 0 is unknown (R51, R82, R83). -/
theorem decodeWord_skip_nibble_eq_none {op : BitVec 4} (hop : op = 0x5#4 ∨ op = 0x9#4) (x y : RegIdx)
    {n : Nibble} (hn : n ≠ 0) : decodeWord (formRegReg op x y n) = none := by
  obtain rfl | rfl := hop
  · simpa [decodeWord] using hn
  · simpa [decodeWord] using hn

/-- Settles O25: each of the four is its comparison's skip. -/
theorem registerSkips : Obligations.RegisterSkips := by
  unfold Obligations.RegisterSkips
  intro x y nn s
  refine ⟨⟨decodeWord_encodeWord (.seI x nn), exec_skip rfl beq_iff_eq⟩,
    ⟨decodeWord_encodeWord (.sneI x nn), exec_skip rfl bne_iff_ne⟩,
    ⟨⟨decodeWord_encodeWord (.seR x y), fun n hn => ?_⟩, exec_skip rfl beq_iff_eq⟩,
    ⟨⟨decodeWord_encodeWord (.sneR x y), fun n hn => ?_⟩, exec_skip rfl bne_iff_ne⟩⟩
  · exact decodeWord_skip_nibble_eq_none (.inl rfl) x y hn
  · exact decodeWord_skip_nibble_eq_none (.inr rfl) x y hn

end Sys2Proof.Machine

/-! # The ALU and the entropy input

Proofs about spec/42_alu.md (R85 to R99): what each ALU instruction leaves in `V[x]` and `VF`, and that the
place in the entropy stream moves on with a completed `Cxnn` alone. -/

namespace Sys2Proof.Machine

/-! ## Who samples the entropy input (R98) -/

/-- `Cxnn` moves the sample counter on by one (R98). -/
theorem execRnd_draws {x : RegIdx} {nn : Byte} {s t : State} (h : exec (.rnd x nn) s = .next t) :
    t.draws = s.draws + 1 := by
  obtain rfl := Host.Outcome.next.inj h
  rfl

/-- The sample counter is in the writes cell of `Cxnn` alone (R24). -/
theorem writeSet_draws_eq_false {i : Instr} (hi : ∀ x nn, i ≠ .rnd x nn) (s : State) :
    (writeSet i s).draws = false := by
  cases i
  case rnd x nn => exact absurd rfl (hi x nn)
  all_goals rfl

/-- Every other instruction keeps the sample counter, which is in its frame. -/
theorem exec_draws_of_ne_rnd {i : Instr} {s t : State} (hi : ∀ x nn, i ≠ .rnd x nn)
    (h : exec i s = .next t) : t.draws = s.draws :=
  (exec_agreesOutside i h).draws (writeSet_draws_eq_false hi s)

theorem keyDownEvent_draws (k : Key) (s : State) : (keyDownEvent k s).draws = s.draws := by
  cases hwait : s.wait with
  | none => rw [keyDownEvent_of_running hwait]; rfl
  | some x => rw [keyDownEvent_of_wait hwait]; rfl

/-- A transition of any event but `STEP` keeps the sample counter, a `RESET` too (notes/assumptions/19.md). -/
theorem applyEvent_draws_of_ne_step {e : Event} {s t : State} (he : e ≠ .step)
    (h : applyEvent e s = .next t) : t.draws = s.draws := by
  cases e with
  | reset image =>
    obtain ⟨-, rfl⟩ := loadImage_eq_next.1 h
    rfl
  | step => exact absurd rfl he
  | tick =>
    obtain rfl := Host.Outcome.next.inj h
    rfl
  | keyDown k =>
    obtain rfl := Host.Outcome.next.inj h
    exact keyDownEvent_draws k s
  | keyUp k =>
    obtain rfl := Host.Outcome.next.inj h
    rfl

/-- Settles O31. -/
theorem onlyRndSamplesEntropy : Obligations.OnlyRndSamplesEntropy := by
  unfold Obligations.OnlyRndSamplesEntropy
  refine fun s t => ⟨fun i h hi => exec_draws_of_ne_rnd hi h,
    fun e he h => applyEvent_draws_of_ne_step he h, fun hwait h => ?_⟩
  obtain ⟨x, hx⟩ := Option.ne_none_iff_exists'.1 hwait
  rw [stepEvent_of_wait hx] at h
  obtain rfl := Host.Outcome.next.inj h
  rfl

/-! ## The place in the entropy stream over many events (R98) -/

/-- An instruction takes at most one sample. -/
theorem exec_draws_bounds (i : Instr) {s t : State} (h : exec i s = .next t) :
    s.draws ≤ t.draws ∧ t.draws ≤ s.draws + 1 := by
  by_cases hi : ∃ x nn, i = .rnd x nn
  · obtain ⟨x, nn, rfl⟩ := hi
    have hdraws := execRnd_draws h
    omega
  · have hdraws := exec_draws_of_ne_rnd (fun x nn hrnd => hi ⟨x, nn, hrnd⟩) h
    omega

/-- A `STEP` runs at most one instruction (R61, R62), so it takes at most one sample. -/
theorem stepEvent_draws_bounds {s t : State} (h : stepEvent s = .next t) :
    s.draws ≤ t.draws ∧ t.draws ≤ s.draws + 1 := by
  cases hwait : s.wait with
  | some x =>
    rw [stepEvent_of_wait hwait] at h
    obtain rfl := Host.Outcome.next.inj h
    omega
  | none =>
    rw [stepEvent_of_running hwait] at h
    obtain ⟨w, i, -, -, hexec⟩ := runInstruction_eq_next.1 h
    exact exec_draws_bounds i (s := s.advance) hexec

/-- A transition never goes back in the stream, and moves on only in a `STEP`, by at most one. -/
theorem applyEvent_draws_bounds {e : Event} {s t : State} (h : applyEvent e s = .next t) :
    s.draws ≤ t.draws ∧ t.draws ≤ s.draws + if e == .step then 1 else 0 := by
  by_cases he : e = .step
  · subst he
    exact stepEvent_draws_bounds h
  · have hdraws := applyEvent_draws_of_ne_step he h
    omega

/-- Delivering an event: a transition moves on as it does; a fault, a failed `RESET` and a `RESET` where there
was no machine leave the place in the stream as it was (notes/assumptions/19.md). -/
theorem deliver_draws_bounds {e : Event} {m m' : Holding} {f : Option Fault}
    (h : deliver e m = .ok (m', f)) :
    m.draws ≤ m'.draws ∧ m'.draws ≤ m.draws + if e == .step then 1 else 0 := by
  obtain ⟨s, t, rfl, happly, rfl, -⟩ | ⟨s, g, -, -, -, rfl, -⟩ | ⟨len, rfl, -, -⟩ |
    ⟨image, t, -, -, rfl, -, hload⟩ := deliver_cases h
  · exact applyEvent_draws_bounds happly
  · exact ⟨le_rfl, Nat.le_add_right _ _⟩
  · exact ⟨le_rfl, Nat.le_add_right _ _⟩
  · obtain ⟨-, rfl⟩ := loadImage_eq_next.1 hload
    exact ⟨le_rfl, Nat.le_add_right _ _⟩

/-- Settles O55, by induction on the events. -/
theorem entropyStreamNeverGoesBack : Obligations.EntropyStreamNeverGoesBack := by
  unfold Obligations.EntropyStreamNeverGoesBack
  intro es
  induction es with
  | nil =>
    intro m m' fs h
    obtain ⟨rfl, -⟩ := Prod.mk.inj (Except.ok.inj h)
    exact ⟨le_rfl, le_rfl⟩
  | cons e es ih =>
    intro m m' fs h
    obtain ⟨m₁, f, fs', hdeliver, hrest, -⟩ := runEvents_cons.1 h
    obtain ⟨hlo₁, hhi₁⟩ := deliver_draws_bounds hdeliver
    obtain ⟨hlo, hhi⟩ := ih m₁ m' fs' hrest
    rw [List.count_cons]
    omega

/-! ## Loads, the add without a flag, and the logic (R85 to R90) -/

/-- Settles O26. -/
theorem immediateLoadAndAdd : Obligations.ImmediateLoadAndAdd := by
  unfold Obligations.ImmediateLoadAndAdd
  intro x nn s
  refine ⟨⟨decodeWord_encodeWord (.ldI x nn), _, rfl, s.reg_setReg_self x nn, agrees_setReg s x nn⟩,
    decodeWord_encodeWord (.addI x nn), _, rfl, ?_, agrees_setReg s x _⟩
  rw [State.reg_setReg_self, addResult_toNat]

/-- Settles O27. -/
theorem moveAndLogic : Obligations.MoveAndLogic := by
  unfold Obligations.MoveAndLogic
  intro x y s
  refine ⟨⟨decodeWord_encodeWord (.ldR x y), _, rfl, s.reg_setReg_self x _, agrees_setReg s x _⟩,
    ⟨decodeWord_encodeWord (.or x y), _, rfl, agrees_setReg s x _, fun k => ?_⟩,
    ⟨decodeWord_encodeWord (.and x y), _, rfl, agrees_setReg s x _, fun k => ?_⟩,
    ⟨decodeWord_encodeWord (.xor x y), _, rfl, agrees_setReg s x _, fun k => ?_⟩⟩
  · rw [State.reg_setReg_self, BitVec.getLsbD_or]
  · rw [State.reg_setReg_self, BitVec.getLsbD_and]
  · rw [State.reg_setReg_self, BitVec.getLsbD_xor]

/-! ## Add and subtract with the flag (R91, R92, R94, R96, R97) -/

/-- The narrowed result as the integer difference modulo 256 (R97). -/
theorem subResult_toNat_eq_emod (a b : Byte) :
    ((subResult a b).toNat : Int) = (a.toNat - b.toNat : Int) % 256 := by
  rw [subResult, BitVec.toNat_ofInt, Int.toNat_of_nonneg (Int.emod_nonneg _ (by decide))]
  rfl

theorem State.reg_setRegThenFlag_self (s : State) {x : RegIdx} (hx : x ≠ vfIdx) (r : Byte) (f : Bool) :
    (s.setRegThenFlag x r f).reg x = r := by
  rw [State.reg_setRegThenFlag, if_neg hx, if_pos rfl]

/-- The flag wins whatever `x` is (R96, D9), and is 1 exactly when its condition holds. -/
theorem State.reg_vf_setRegThenFlag_toNat (s : State) (x : RegIdx) (r : Byte) {f : Bool} {P : Prop}
    [Decidable P] (hf : f = true ↔ P) :
    ((s.setRegThenFlag x r f).reg vfIdx).toNat = if P then 1 else 0 := by
  rw [State.reg_setRegThenFlag, if_pos rfl, apply_ite BitVec.toNat]
  exact if_congr hf rfl rfl

/-- Settles O28. -/
theorem addAndSubtractWithFlag : Obligations.AddAndSubtractWithFlag := by
  unfold Obligations.AddAndSubtractWithFlag
  intro x y s
  refine ⟨⟨_, rfl, agrees_setRegThenFlag s x _ _, fun hx => ?_,
      s.reg_vf_setRegThenFlag_toNat x _ decide_eq_true_iff⟩,
    ⟨_, rfl, agrees_setRegThenFlag s x _ _, fun hx => ?_,
      s.reg_vf_setRegThenFlag_toNat x _ decide_eq_true_iff⟩,
    ⟨_, rfl, agrees_setRegThenFlag s x _ _, fun hx => ?_,
      s.reg_vf_setRegThenFlag_toNat x _ decide_eq_true_iff⟩⟩
  · rw [s.reg_setRegThenFlag_self hx, addResult_toNat]
  · rw [s.reg_setRegThenFlag_self hx, subResult_toNat_eq_emod]
  · rw [s.reg_setRegThenFlag_self hx, subResult_toNat_eq_emod]

/-! ## Shifts (R93, R95, R96) -/

@[simp] theorem shlResult_toNat (b : Byte) : (shlResult b).toNat = b.toNat * 2 % 256 := by
  simp [shlResult, Nat.shiftLeft_eq]

/-- The bit that `8xy6` shifts out is shifted away by a second shift. -/
theorem shrResult_shrOut (b : Byte) : shrResult (shrOut b) = 0 := by
  apply BitVec.eq_of_toNat_eq
  rw [shrResult_toNat, shrOut_toNat]
  show b.toNat % 2 / 2 = 0
  omega

/-- The bit that `8xyE` shifts out, doubled. -/
theorem shlResult_shlOut (b : Byte) : shlResult (shlOut b) = if b.toNat ≥ 128 then 2 else 0 := by
  have hb := b.isLt
  apply BitVec.eq_of_toNat_eq
  rw [shlResult_toNat, shlOut_toNat, apply_ite BitVec.toNat]
  show b.toNat / 128 * 2 % 256 = if b.toNat ≥ 128 then 2 else 0
  split <;> omega

theorem State.reg_setFlagThenShift_self (s : State) {x : RegIdx} (hx : x ≠ vfIdx) (out shift : Byte → Byte) :
    (s.setFlagThenShift x out shift).reg x = shift (s.reg x) := by
  rw [State.reg_setFlagThenShift, if_pos rfl, if_neg hx]

theorem State.reg_vf_setFlagThenShift (s : State) {x : RegIdx} (hx : x ≠ vfIdx) (out shift : Byte → Byte) :
    (s.setFlagThenShift x out shift).reg vfIdx = out (s.reg x) := by
  rw [State.reg_setFlagThenShift, if_neg hx.symm, if_pos rfl]

/-- For `x` = F the flag itself is shifted (R96, D9). -/
theorem State.reg_vf_setFlagThenShift_vf (s : State) (out shift : Byte → Byte) :
    (s.setFlagThenShift vfIdx out shift).reg vfIdx = shift (out (s.reg vfIdx)) := by
  rw [State.reg_setFlagThenShift, if_pos rfl, if_pos rfl]

/-- Settles O29, by whether `x` is F. -/
theorem shiftsByOne : Obligations.ShiftsByOne := by
  unfold Obligations.ShiftsByOne
  intro x y s
  refine ⟨⟨_, rfl, agrees_setFlagThenShift s x _ _, fun hx => ⟨?_, ?_⟩, ?_⟩,
    ⟨_, rfl, agrees_setFlagThenShift s x _ _, fun hx => ⟨?_, ?_⟩, ?_⟩⟩
  · rw [s.reg_setFlagThenShift_self hx, shrResult_toNat]
  · rw [s.reg_vf_setFlagThenShift hx, shrOut_toNat]
  · rintro rfl
    rw [s.reg_vf_setFlagThenShift_vf, shrResult_shrOut]
  · rw [s.reg_setFlagThenShift_self hx, shlResult_toNat]
  · rw [s.reg_vf_setFlagThenShift hx, shlOut_toNat]
  · rintro rfl
    rw [s.reg_vf_setFlagThenShift_vf, shlResult_shlOut]

/-! ## The masked sample (R98, R99) -/

/-- Masking leaves no bit outside the mask. -/
theorem and_and_not_self (b nn : Byte) : b &&& nn &&& ~~~nn = 0 := by
  rw [BitVec.and_assoc, BitVec.and_not_self]
  exact BitVec.and_zero

/-- Settles O30. -/
theorem rndMasksOneSample : Obligations.RndMasksOneSample := by
  unfold Obligations.RndMasksOneSample
  intro x nn s
  have hreg : (s.sampleEntropy.2.setReg x (Config.entropy s.draws &&& nn)).reg x =
      Config.entropy s.draws &&& nn := State.reg_setReg_self _ x _
  exact ⟨_, rfl, hreg, (congrArg (· &&& ~~~nn) hreg).trans (and_and_not_self _ nn), rfl,
    agrees_sampleEntropy_setReg s x _⟩

end Sys2Proof.Machine

/-! # The index register, the stores and the loads

Proofs about spec/43_index_memory.md (R100 to R107): what each instruction leaves in `I`, in memory and in the
registers, and that a load of the registers just stored changes nothing. -/

namespace Sys2Proof.Machine

/-! ## Writes to `I` (R100 to R102) -/

/-- Settles O32. -/
theorem setIndex : Obligations.SetIndex := by
  unfold Obligations.SetIndex
  intro nnn x s
  exact ⟨⟨decodeWord_encodeWord (.ldIdx nnn), _, rfl, addrOperand_toNat nnn, agrees_setI s _⟩,
    decodeWord_encodeWord (.ldFont x), _, rfl, glyphAddress_toNat (s.reg x), agrees_setI s _⟩

/-- `VF` as a number: 1 exactly when the flag's condition holds (R11). -/
theorem State.reg_setVF_self_toNat (s : State) {f : Bool} {P : Prop} [Decidable P] (hf : f = true ↔ P) :
    ((s.setVF f).reg vfIdx).toNat = if P then 1 else 0 := by
  rw [State.reg_setVF_self, apply_ite BitVec.toNat]
  exact if_congr hf rfl rfl

/-- The carry of `Fx1E` is the one out of 16 bits (R101, D14). -/
theorem idxAddCarry_regZext_iff (w : Word) (s : State) (x : RegIdx) :
    idxAddCarry w (s.regZext x) = true ↔ w.toNat + (s.reg x).toNat > 65535 := by
  rw [idxAddCarry, decide_eq_true_iff, State.regZext_toNat]

/-- Settles O33: sum and carry are of the old values, since both operands are read before either write. -/
theorem addToIndexCarriesOutOf16Bits : Obligations.AddToIndexCarriesOutOf16Bits := by
  unfold Obligations.AddToIndexCarriesOutOf16Bits
  intro x s
  refine ⟨_, rfl, ?_, State.reg_setVF_self_toNat _ (idxAddCarry_regZext_iff s.i s x),
    agrees_setI_setVF s _ _⟩
  rw [State.setVF_i, State.setI_i, idxAddResult_toNat, State.regZext_toNat]

/-! ## Stores at `I` (R103, R104) -/

/-- A store whose bytes all lie inside memory completes (R37). -/
theorem storeAtI_of_fits {bytes : List Byte} {s : State} (h : s.i.toNat + bytes.length ≤ 4096) :
    ∃ t, storeAtI bytes s = .next t :=
  ⟨_, storeAtI_eq_next.2 (State.memWrite_eq_some.2 ⟨.inr h, rfl⟩)⟩

/-- A completed store leaves byte `k` at `I + k` (R37). -/
theorem mem_read_of_storeAtI {bytes : List Byte} {s t : State} (hwf : s.mem.wf = true)
    (h : storeAtI bytes s = .next t) {k : Nat} (hk : k < bytes.length) :
    t.mem.read (s.i.toNat + k) = bytes[k] :=
  State.mem_read_of_memWrite hwf (storeAtI_eq_next.1 h) hk

/-- The three digits, each kept whole by its byte (R103). -/
theorem decimalDigits_toNat (b : Byte) :
    (decimalDigits b)[0].toNat = b.toNat / 100 ∧ (decimalDigits b)[1].toNat = b.toNat / 10 % 10 ∧
      (decimalDigits b)[2].toNat = b.toNat % 10 := by
  have hb := b.isLt
  refine ⟨Nat.mod_eq_of_lt ?_, Nat.mod_eq_of_lt ?_, Nat.mod_eq_of_lt ?_⟩ <;> omega

/-- Settles O34. -/
theorem bcdStoresThreeDigits : Obligations.BcdStoresThreeDigits := by
  unfold Obligations.BcdStoresThreeDigits
  intro x s hwf
  refine ⟨decodeWord_encodeWord (.stBcd x), fun hin => ?_, fun hout => ?_⟩
  · obtain ⟨t, ht⟩ := storeAtI_of_fits (bytes := decimalDigits (s.reg x)) (s := s)
      (by rw [length_decimalDigits]; omega)
    have hread {k : Nat} (hk : k < 3) :
        (t.mem.read (s.i.toNat + k)).toNat = (decimalDigits (s.reg x))[k].toNat :=
      congrArg BitVec.toNat (mem_read_of_storeAtI hwf ht hk)
    obtain ⟨hhundreds, htens, hunits⟩ := decimalDigits_toNat (s.reg x)
    exact ⟨t, ht, (hread (k := 0) (by decide)).trans hhundreds, (hread (by decide)).trans htens,
      (hread (by decide)).trans hunits, exec_agreesOutside (.stBcd x) ht⟩
  · exact exec_eq_fault_iff.2 (if_pos (by omega))

/-- Settles O35. -/
theorem storeRegistersAtI : Obligations.StoreRegistersAtI := by
  unfold Obligations.StoreRegistersAtI
  intro x s hwf
  refine ⟨decodeWord_encodeWord (.stRegs x), fun hin => ?_, fun hout => ?_⟩
  · obtain ⟨t, ht⟩ := storeAtI_of_fits (bytes := s.regRange x) (s := s) (by rw [length_regRange]; omega)
    exact ⟨t, ht, fun k hk => mem_read_of_execStRegs hwf ht hk, exec_agreesOutside (.stRegs x) ht⟩
  · exact exec_eq_fault_iff.2 (if_pos (by omega))

/-! ## Loads from `I` (R105) -/

/-- A load whose bytes all lie inside memory completes (R36). -/
theorem exec_ldRegs_of_fits {x : RegIdx} {s : State} (h : s.i.toNat + x.toNat ≤ 4095) :
    ∃ t, exec (.ldRegs x) s = .next t :=
  ⟨_, execLdRegs_eq_next.2 ⟨_, State.memRead_eq_some.2
    ⟨.inr (by rw [State.base, rangeLength]; omega), rfl⟩, rfl⟩⟩

/-- A completed `Fx65` leaves the byte at `I + k`, for `k` up to `x`, in `V[k]` (R105). -/
theorem reg_of_exec_ldRegs {x k : RegIdx} {s t : State} (h : exec (.ldRegs x) s = .next t)
    (hk : k.toNat ≤ x.toNat) : t.reg k = s.mem.read (s.i.toNat + k.toNat) := by
  have hx := x.isLt
  obtain ⟨bytes, hread, rfl⟩ := execLdRegs_eq_next.1 h
  obtain ⟨-, rfl⟩ := State.memRead_eq_some.1 hread
  rw [State.reg_setRegsFrom _ _ _ _ (by simp [rangeLength]; omega),
    dif_pos (by simp [rangeLength]; omega)]
  simp [State.base]

/-- Settles O36. -/
theorem loadRegistersFromI : Obligations.LoadRegistersFromI := by
  unfold Obligations.LoadRegistersFromI
  intro x s
  refine ⟨decodeWord_encodeWord (.ldRegs x), fun hin => ?_, fun hout => ?_⟩
  · obtain ⟨t, ht⟩ := exec_ldRegs_of_fits hin
    exact ⟨t, ht, fun k hk => reg_of_exec_ldRegs ht hk, exec_agreesOutside (.ldRegs x) ht⟩
  · exact exec_eq_fault_iff.2 (if_pos (by omega))

/-! ## A load behind a store (R107) -/

/-- A load of bytes that the registers already hold changes nothing at all. -/
theorem eq_of_exec_ldRegs {x : RegIdx} {s t : State} (h : exec (.ldRegs x) s = .next t)
    (hsame : ∀ k : RegIdx, k.toNat ≤ x.toNat → s.mem.read (s.i.toNat + k.toNat) = s.reg k) : t = s := by
  have hv : t.v = s.v := State.v_ext fun k => by
    by_cases hk : k.toNat ≤ x.toNat
    · exact (reg_of_exec_ldRegs h hk).trans (hsame k hk)
    · exact (exec_agreesOutside (.ldRegs x) h).regs k (mem_regRangeIdx.not.2 hk)
  obtain ⟨bytes, -, rfl⟩ := execLdRegs_eq_next.1 h
  rw [State.setRegsFrom_eq, hv]

/-- Settles O37: the store changes neither `I` nor a register, so the load reads what the registers still hold,
and the state after it is the state the store left. -/
theorem storeThenLoadIsIdentity : Obligations.StoreThenLoadIsIdentity := by
  unfold Obligations.StoreThenLoadIsIdentity
  intro x s t hwf h
  have hframe : AgreesOutside { mem := addrRange s.i.toNat (x.toNat + 1) } s t :=
    exec_agreesOutside (.stRegs x) h
  have hi : t.i = s.i := hframe.i rfl
  have hreg (k : RegIdx) : t.reg k = s.reg k := hframe.regs k List.not_mem_nil
  obtain ⟨u, hu⟩ : ∃ u, exec (.ldRegs x) t = .next u :=
    exec_ldRegs_of_fits (hi ▸ execStRegs_fits h)
  have hut : u = t := eq_of_exec_ldRegs hu fun k hk => by
    rw [hi, mem_read_of_execStRegs hwf h hk, hreg]
  subst hut
  exact ⟨u, hu, State.v_ext hreg, hframe⟩

end Sys2Proof.Machine

/-! # The display: the clear and the draw

Proofs about spec/44_display.md (R110 to R117): that the loops of `Dxyn` do what its closed form says, when it
faults, and what follows from the closed form for a second draw and for a sprite off the screen. -/

namespace Sys2Proof.Machine

/-! ## The clear (R110) -/

/-- Settles O41. -/
theorem clsClearsEveryPixel : Obligations.ClsClearsEveryPixel := by
  unfold Obligations.ClsClearsEveryPixel
  exact ⟨decodeWord_encodeWord .cls, fun s => ⟨_, rfl, fun r c _ _ => FrameBuffer.get_blank r c,
    exec_agreesOutside .cls rfl⟩⟩

/-! ## The draw in closed form (R111 to R115) -/

/-- A draw that completes has run the loops over the rows read at `I`, from the old registers (R111, R113). -/
theorem execDrw_eq_next_iff {x y : RegIdx} {n : Nibble} {s t : State} :
    execDrw x y n s = .next t ↔
      ∃ rows g, s.memRead s.base n.toNat = some rows ∧
        g = blit (s.reg x).toNat (s.reg y).toNat rows { fb := s.fb, hit := false } ∧
        t = State.setVF { s with fb := g.fb } g.hit := by
  unfold execDrw
  cases s.memRead s.base n.toNat with
  | none => simp [raise]
  | some rows => simp [eq_comm]

/-- A draw completes exactly when all its rows are inside memory (R114). -/
theorem exists_exec_drw_eq_next_iff {x y : RegIdx} {n : Nibble} {s : State} :
    (∃ t, exec (.drw x y n) s = .next t) ↔ n = 0 ∨ s.i.toNat + n.toNat - 1 ≤ 4095 := by
  have hbound : (n.toNat = 0 ∨ s.base + n.toNat ≤ 4096) ↔ (n = 0 ∨ s.i.toNat + n.toNat - 1 ≤ 4095) := by
    unfold State.base
    bv_omega
  constructor
  · rintro ⟨t, h⟩
    obtain ⟨rows, g, hrows, -, -⟩ := execDrw_eq_next_iff.1 h
    exact hbound.1 (State.memRead_eq_some.1 hrows).1
  · intro hin
    exact ⟨_, execDrw_eq_next_iff.2 ⟨_, _, State.memRead_eq_some.2 ⟨hbound.2 hin, rfl⟩, rfl, rfl⟩⟩

/-- The bits of the rows read at `I` are the sprite's (R111, R115). -/
theorem rowsBit_of_memRead {s : State} {n : Nibble} {rows : List Byte}
    (h : s.memRead s.base n.toNat = some rows) (x y : RegIdx) (r c : Nat) :
    rowsBit (s.reg x).toNat (s.reg y).toNat rows r c = s.spriteAt x y n r c := by
  obtain ⟨-, rfl⟩ := State.memRead_eq_some.1 h
  unfold rowsBit State.spriteAt spriteBit State.base
  rw [List.length_map, List.length_range]
  by_cases hin : (s.reg y).toNat ≤ r ∧ r < (s.reg y).toNat + n.toNat ∧
      (s.reg x).toNat ≤ c ∧ c < (s.reg x).toNat + 8
  · have hrow : r - (s.reg y).toNat < n.toNat := by omega
    simp [List.getD_eq_getElem?_getD, hrow]
  · simp only [hin, decide_false, Bool.false_and]

/-- There is no pixel off the screen, and false stands for that (R16). -/
theorem State.pixel_off_screen (s : State) {r c : Nat} (h : ¬ (r < 32 ∧ c < 64)) : s.pixel r c = false :=
  dif_neg h

/-- A flag write leaves 1 in `VF` exactly for a raised flag (R11). -/
theorem State.reg_setVF_self_eq_one_iff (s : State) (f : Bool) : (s.setVF f).reg vfIdx = 1 ↔ f = true := by
  rw [State.reg_setVF_self]
  cases f <;> decide

section Draw

variable {x y : RegIdx} {n : Nibble} {s t : State} (h : exec (.drw x y n) s = .next t)
include h

/-- Each pixel of the screen is xored with the sprite's bit there (R111, R112). -/
theorem pixel_of_exec_drw {r c : Nat} (hr : r < 32) (hc : c < 64) :
    t.pixel r c = (s.pixel r c ^^ s.spriteAt x y n r c) := by
  obtain ⟨rows, g, hrows, rfl, rfl⟩ := execDrw_eq_next_iff.1 h
  rw [← rowsBit_of_memRead hrows]
  exact blit_get _ rows _ _ r c hr hc

/-- `VF` ends as 1 exactly when some set pixel met a 1 bit (R113). -/
theorem reg_vf_eq_one_iff_of_exec_drw : t.reg vfIdx = 1 ↔
    ∃ r c, r < 32 ∧ c < 64 ∧ s.pixel r c = true ∧ s.spriteAt x y n r c = true := by
  obtain ⟨rows, g, hrows, rfl, rfl⟩ := execDrw_eq_next_iff.1 h
  rw [State.reg_setVF_self_eq_one_iff, blit_hit]
  simp [rowsBit_of_memRead hrows, State.pixel]

/-- A draw without a collision leaves 0 in `VF` (R113). -/
theorem reg_vf_eq_zero_of_exec_drw
    (hno : ¬ ∃ r c, r < 32 ∧ c < 64 ∧ s.pixel r c = true ∧ s.spriteAt x y n r c = true) :
    t.reg vfIdx = 0 :=
  (exec_flag_zero_or_one h rfl nofun).resolve_right (mt (reg_vf_eq_one_iff_of_exec_drw h).1 hno)

/-- A sprite with no 1 bit on the screen draws nothing and clears `VF`. -/
theorem exec_drw_of_spriteAt_eq_false
    (hclear : ∀ r c, r < 32 → c < 64 → s.spriteAt x y n r c = false) :
    t.reg vfIdx = 0 ∧ AgreesOutside { regs := [vfIdx] } s t := by
  refine ⟨reg_vf_eq_zero_of_exec_drw h ?_,
    { exec_agreesOutside (.drw x y n) h with fb := fun _ r c => ?_ }⟩
  · rintro ⟨r, c, hr, hc, -, hbit⟩
    exact Bool.false_ne_true ((hclear r c hr hc).symm.trans hbit)
  · by_cases hin : r < 32 ∧ c < 64
    · rw [pixel_of_exec_drw h hin.1 hin.2, hclear r c hin.1 hin.2, Bool.xor_false]
    · rw [State.pixel_off_screen t hin, State.pixel_off_screen s hin]

end Draw

/-- Settles O42. -/
theorem drwIsTheClosedForm : Obligations.DrwIsTheClosedForm := by
  unfold Obligations.DrwIsTheClosedForm
  intro x y n s hin
  obtain ⟨t, h⟩ := exists_exec_drw_eq_next_iff.2 hin
  exact ⟨t, h, fun _ _ hr hc => pixel_of_exec_drw h hr hc, (reg_vf_eq_one_iff_of_exec_drw h).2,
    reg_vf_eq_zero_of_exec_drw h, exec_agreesOutside (.drw x y n) h⟩

/-! ## Sprites that draw nothing, and rows outside memory (R112, R114) -/

/-- A sprite of no rows has no bit anywhere. -/
theorem State.spriteAt_height_zero (s : State) (x y : RegIdx) (r c : Nat) :
    s.spriteAt x y 0 r c = false := by
  rw [State.spriteAt, decide_eq_false fun ⟨hle, hlt, _⟩ => Nat.not_lt.2 hle hlt, Bool.false_and]

/-- A sprite whose origin is off the screen has no bit on the screen (R112). -/
theorem State.spriteAt_of_origin_off_screen {s : State} {x y : RegIdx}
    (hoff : (s.reg x).toNat ≥ 64 ∨ (s.reg y).toNat ≥ 32) (n : Nibble) {r c : Nat} (hr : r < 32)
    (hc : c < 64) : s.spriteAt x y n r c = false := by
  rw [State.spriteAt, decide_eq_false (by omega), Bool.false_and]

/-- Settles O43. -/
theorem drwChecksAllRowsFirst : Obligations.DrwChecksAllRowsFirst := by
  unfold Obligations.DrwChecksAllRowsFirst
  intro x y n s
  refine ⟨fun hrows hout => exec_eq_fault_iff.2 (if_pos ⟨hrows, hout⟩), ?_⟩
  obtain ⟨t, h⟩ := exists_exec_drw_eq_next_iff (x := x) (y := y) (s := s).2 (.inl rfl)
  exact ⟨t, h, exec_drw_of_spriteAt_eq_false h fun r c _ _ => s.spriteAt_height_zero x y r c⟩

/-- Settles O45. -/
theorem offScreenOriginDrawsNothing : Obligations.OffScreenOriginDrawsNothing := by
  unfold Obligations.OffScreenOriginDrawsNothing
  intro x y n s hin hoff
  obtain ⟨t, h⟩ := exists_exec_drw_eq_next_iff.2 hin
  exact ⟨t, h, exec_drw_of_spriteAt_eq_false h fun _ _ => State.spriteAt_of_origin_off_screen hoff n⟩

/-! ## The second draw (R117) -/

/-- A draw that leaves its coordinates as they were leaves the sprite where and as it was. -/
theorem spriteAt_of_exec_drw {x y : RegIdx} {n : Nibble} {s t : State} (h : exec (.drw x y n) s = .next t)
    (hx : t.reg x = s.reg x) (hy : t.reg y = s.reg y) (r c : Nat) :
    t.spriteAt x y n r c = s.spriteAt x y n r c := by
  have hframe := exec_agreesOutside (.drw x y n) h
  rw [State.spriteAt, State.spriteAt, hx, hy, hframe.i rfl, hframe.mem _ List.not_mem_nil]

/-- Settles O44: the second draw xors each pixel with the same bit, and finds a pixel under a 1 bit set exactly
when the first draw found it clear. -/
theorem drawingTwiceRestores : Obligations.DrawingTwiceRestores := by
  unfold Obligations.DrawingTwiceRestores
  intro x y n s t h hx hy
  have hi : t.i = s.i := (exec_agreesOutside (.drw x y n) h).i rfl
  have hsprite := spriteAt_of_exec_drw h hx hy
  obtain ⟨u, hu⟩ : ∃ u, exec (.drw x y n) t = .next u :=
    exists_exec_drw_eq_next_iff.2 (hi ▸ exists_exec_drw_eq_next_iff.1 ⟨t, h⟩)
  refine ⟨u, hu, fun r c hr hc => ?_, (reg_vf_eq_one_iff_of_exec_drw hu).trans ?_,
    exec_flag_zero_or_one hu rfl nofun⟩
  · rw [pixel_of_exec_drw hu hr hc, pixel_of_exec_drw h hr hc, hsprite, Bool.xor_assoc, Bool.xor_self,
      Bool.xor_false]
  · refine exists₂_congr fun r c => and_congr_right fun hr => and_congr_right fun hc => ?_
    rw [pixel_of_exec_drw h hr hc, hsprite]
    exact and_congr_left fun hbit => by rw [hbit, Bool.xor_true, Bool.not_eq_true']

end Sys2Proof.Machine

/-! # Timers and keys: timer access, the key skips, the key wait

Proofs about spec/45_timers_keys.md (R120 to R126): what the timer instructions write and how `TICK` counts it
down, that no instruction reads the sound timer back, when the key skips skip, and what ends a key wait. -/

namespace Sys2Proof.Machine

/-! ## The timers over many `TICK`s (R64, R121, R122) -/

/-- `n` `TICK`s take `n` from the delay timer, down to 0. -/
theorem ticks_dt_toNat (n : Nat) (s : State) : (ticks n s).dt.toNat = s.dt.toNat - n := by
  induction n generalizing s with
  | zero => rfl
  | succ n ih =>
    have hdt : (tickEvent s).dt.toNat = s.dt.toNat - 1 := countDown_toNat s.dt
    rw [ticks, ih, hdt]
    omega

/-- `n` `TICK`s take `n` from the sound timer, down to 0. -/
theorem ticks_st_toNat (n : Nat) (s : State) : (ticks n s).st.toNat = s.st.toNat - n := by
  induction n generalizing s with
  | zero => rfl
  | succ n ih =>
    have hst : (tickEvent s).st.toNat = s.st.toNat - 1 := countDown_toNat s.st
    rw [ticks, ih, hst]
    omega

/-- The sound is active until as many `TICK`s have passed as the sound timer holds (R69). -/
theorem soundActive_ticks_iff (n : Nat) (s : State) : soundActive (ticks n s) = true ↔ n < s.st.toNat := by
  rw [soundActive, decide_eq_true_iff, ticks_st_toNat]
  omega

/-! ## No instruction reads the sound timer back (R122) -/

theorem State.skipIf_setSt (s : State) (c : Bool) (b : Byte) :
    (s.setSt b).skipIf c = (s.skipIf c).setSt b := by
  cases c <;> rfl

theorem State.setRegsFrom_setSt (b : Byte) (bytes : List Byte) : ∀ (s : State) (k : Nat),
    (s.setSt b).setRegsFrom k bytes = (s.setRegsFrom k bytes).setSt b := by
  induction bytes with
  | nil => exact fun _ _ => rfl
  | cons c bytes ih =>
    intro s k
    unfold State.setRegsFrom
    split
    · exact ih { s with v := s.v.set k c } (k + 1)
    · rfl

theorem skipIfKey_setSt {x : RegIdx} {wanted : Bool} {s t : State} (h : skipIfKey x wanted s = .next t)
    (b : Byte) : skipIfKey x wanted (s.setSt b) = .next (t.setSt b) := by
  obtain ⟨k, hk, rfl⟩ := skipIfKey_eq_next.1 h
  exact skipIfKey_eq_next.2 ⟨k, hk, (s.skipIf_setSt _ b).symm⟩

theorem storeAtI_setSt {bytes : List Byte} {s t : State} (h : storeAtI bytes s = .next t) (b : Byte) :
    storeAtI bytes (s.setSt b) = .next (t.setSt b) := by
  obtain ⟨hfits, rfl⟩ := State.memWrite_eq_some.1 (storeAtI_eq_next.1 h)
  exact storeAtI_eq_next.2 (State.memWrite_eq_some.2 ⟨hfits, rfl⟩)

/-- An instruction that completes does the same with another sound timer, which it leaves alone unless it is
`Fx18`. -/
theorem exec_setSt_of_eq_next {i : Instr} {s t : State} (hi : ∀ z, i ≠ .stSt z) (h : exec i s = .next t)
    (b : Byte) : exec i (s.setSt b) = .next (t.setSt b) := by
  cases i
  case stSt z => exact absurd rfl (hi z)
  case ret =>
    obtain ⟨target, s', hpop, rfl⟩ := execRet_eq_next.1 h
    obtain ⟨hocc, htop, rfl⟩ := State.pop_eq_some.1 hpop
    exact execRet_eq_next.2 ⟨target, _, State.pop_eq_some.2 ⟨hocc, htop, rfl⟩, rfl⟩
  case call nnn =>
    obtain ⟨s', hpush, rfl⟩ := execCall_eq_next.1 h
    obtain ⟨hfree, rfl⟩ := State.push_eq_some.1 hpush
    exact execCall_eq_next.2 ⟨_, State.push_eq_some.2 ⟨hfree, rfl⟩, rfl⟩
  case skp | sknp => exact skipIfKey_setSt h b
  case drw x y n =>
    obtain ⟨rows, g, hrows, hg, rfl⟩ := execDrw_eq_next_iff.1 h
    exact execDrw_eq_next_iff.2 ⟨rows, g, hrows, hg, rfl⟩
  case stBcd | stRegs => exact storeAtI_setSt h b
  case ldRegs x =>
    obtain ⟨bytes, hread, rfl⟩ := execLdRegs_eq_next.1 h
    exact execLdRegs_eq_next.2 ⟨bytes, hread, (State.setRegsFrom_setSt b bytes s 0).symm⟩
  all_goals obtain rfl := Host.Outcome.next.inj h
  case seI | sneI | seR | sneR => exact congrArg Host.Outcome.next (s.skipIf_setSt _ b)
  all_goals rfl

/-- No fault's cause is in the sound timer (R130). -/
theorem faultCause_setSt (i : Instr) (s : State) (b : Byte) : faultCause i (s.setSt b) = faultCause i s := by
  cases i <;> rfl

/-- Settles O46. -/
theorem timerAccess : Obligations.TimerAccess := by
  unfold Obligations.TimerAccess
  intro x s
  refine ⟨⟨decodeWord_encodeWord (.ldDt x), _, rfl, State.reg_setReg_self s x _, agrees_setReg s x _⟩,
    ⟨decodeWord_encodeWord (.stDt x), _, rfl, rfl, agrees_setDt s _, fun n => ticks_dt_toNat n _⟩,
    ⟨decodeWord_encodeWord (.stSt x), _, rfl, rfl, agrees_setSt s _,
      fun n => ⟨ticks_st_toNat n _, soundActive_ticks_iff n _⟩⟩,
    fun i b hi => ⟨fun t h => exec_setSt_of_eq_next hi h b, fun f h => ?_⟩⟩
  rw [exec_eq_fault_iff, faultCause_setSt]
  exact exec_eq_fault_iff.1 h

/-! ## The key skips (R123, R124, R126) -/

/-- A register that holds a key number names that key (R126). -/
theorem keyOperand_of_toNat_eq {b : Byte} {k : Key} (h : b.toNat = k.toNat) : keyOperand b = some k :=
  keyOperand_eq_some.2 ⟨h ▸ k.isLt, by bv_omega⟩

/-- The key skips on a register that names a key are skips on its flag (R123, R124). -/
theorem skipIfKey_of_toNat_eq {x : RegIdx} {s : State} {k : Key} (h : (s.reg x).toNat = k.toNat)
    (wanted : Bool) : skipIfKey x wanted s = .next (s.skipIf (s.key k == wanted)) :=
  skipIfKey_eq_next.2 ⟨k, keyOperand_of_toNat_eq h, rfl⟩

/-- Settles O47, by whether `V[x]` names a key. -/
theorem keySkips : Obligations.KeySkips := by
  unfold Obligations.KeySkips
  refine fun x s => ⟨fun k hk => ⟨?_, ?_⟩, fun hout => ⟨?_, ?_⟩⟩
  · exact exec_skip (i := .skp x) (skipIfKey_of_toNat_eq hk true) beq_iff_eq
  · exact exec_skip (i := .sknp x) (skipIfKey_of_toNat_eq hk false) beq_iff_eq
  · exact exec_eq_fault_iff.2 (if_pos hout)
  · exact exec_eq_fault_iff.2 (if_pos hout)

/-! ## The key wait (R125, R61, R64, R66) -/

/-- `u` is what a key wait for `x` that began in `s` has come to after `n` `TICK`s: still waiting, `PC` and the
registers as they were, both timers counted down. -/
structure WaitsSince (x : RegIdx) (n : Nat) (s u : State) : Prop where
  wait : u.wait = some x
  pc : u.pc = s.pc
  v : u.v = s.v
  dt : u.dt.toNat = s.dt.toNat - n
  st : u.st.toNat = s.st.toNat - n

theorem WaitsSince.refl {x : RegIdx} {s : State} (h : s.wait = some x) : WaitsSince x 0 s s :=
  ⟨h, rfl, rfl, rfl, rfl⟩

theorem WaitsSince.trans {x : RegIdx} {m n : Nat} {s t u : State} (hst : WaitsSince x m s t)
    (htu : WaitsSince x n t u) : WaitsSince x (n + m) s u where
  wait := htu.wait
  pc := htu.pc.trans hst.pc
  v := htu.v.trans hst.v
  dt := by rw [htu.dt, hst.dt]; omega
  st := by rw [htu.st, hst.st]; omega

/-- `STEP`, `TICK` and `KEY_UP` complete during a key wait and leave it on. -/
theorem applyEvent_of_keepsWaiting {e : Event} {x : RegIdx} {s : State} (he : keepsWaiting e = true)
    (hwait : s.wait = some x) :
    ∃ t, applyEvent e s = .next t ∧ WaitsSince x (if e == .tick then 1 else 0) s t := by
  cases e with
  | reset image => cases he
  | step => exact ⟨s, stepEvent_of_wait hwait, .refl hwait⟩
  | tick => exact ⟨tickEvent s, rfl, hwait, rfl, rfl, countDown_toNat s.dt, countDown_toNat s.st⟩
  | keyDown k => cases he
  | keyUp k => exact ⟨keyUpEvent k s, rfl, hwait, rfl, rfl, rfl, rfl⟩

/-- No sequence of `STEP`, `TICK` and `KEY_UP` ends a key wait or faults. -/
theorem runEvents_of_keepsWaiting {x : RegIdx} {es : List Event} (hes : ∀ e ∈ es, keepsWaiting e = true) :
    ∀ {s : State}, s.wait = some x →
      ∃ u, runEvents es (.machine s) = .ok (.machine u, List.replicate es.length none) ∧
        WaitsSince x (es.count .tick) s u := by
  induction es with
  | nil => exact fun {s} hwait => ⟨s, rfl, .refl hwait⟩
  | cons e es ih =>
    intro s hwait
    obtain ⟨he, hes⟩ := List.forall_mem_cons.1 hes
    obtain ⟨t, happly, hst⟩ := applyEvent_of_keepsWaiting he hwait
    obtain ⟨u, hrun, htu⟩ := ih hes hst.wait
    refine ⟨u, runEvents_cons_machine_none.2 ⟨t, happly, hrun⟩, ?_⟩
    rw [List.count_cons]
    exact hst.trans htu

/-- A `RESET` with an image that fits ends a wait (R150). -/
theorem exists_loadImage_running {image : List Byte} (hfits : image.length ≤ 3584) (s : State) :
    ∃ r, loadImage image s = .next r ∧ r.wait = none :=
  ⟨_, loadImage_eq_next.2 ⟨decide_eq_true hfits, rfl⟩, rfl⟩

/-- Settles O48: the wait that `Fx0A` begins is followed over the events, and what ends it is read off the state
it has come to. -/
theorem keyWaitEndsOnlyAtKeyDownOrReset : Obligations.KeyWaitEndsOnlyAtKeyDownOrReset := by
  unfold Obligations.KeyWaitEndsOnlyAtKeyDownOrReset
  intro x s
  refine ⟨decodeWord_encodeWord (.ldKey x), s.setWait (some x), rfl, rfl, agrees_setWait s _,
    fun es hes => ?_⟩
  obtain ⟨u, hrun, hu⟩ := runEvents_of_keepsWaiting (s := s.setWait (some x)) hes rfl
  refine ⟨u, hrun, hu.wait, hu.pc, hu.v, hu.dt, hu.st,
    fun image hfits => exists_loadImage_running hfits u, fun k => ?_⟩
  rw [keyDownEvent_of_wait hu.wait]
  exact ⟨rfl, by simp, by simp, hu.pc⟩

end Sys2Proof.Machine

/-! # Exceptions: when a `STEP`, an instruction and a `RESET` fault, and what a fault leads to

Proofs about spec/60_exceptions.md (R130 to R140): the fault of a `STEP` read off its stages, that an instruction
without a cause of fault completes, when a `RESET` fails, and that a faulting machine goes on faulting. -/

namespace Sys2Proof.Machine

/-! ## The exact fault of a `STEP` (R62, R131, R138) -/

/-- A `STEP` faults exactly when the machine is Running and a stage raises the fault: the fetch, the decoding, or
the execution of the decoded instruction. -/
theorem stepEvent_eq_fault_iff {s : State} {f : Fault} :
    stepEvent s = .fault f ↔ s.wait = none ∧
      ((s.fetchWord s.pc.toNat = none ∧ f = .outOfBoundsAccess s.pc.toNat 2) ∨
        ∃ w, s.fetchWord s.pc.toNat = some w ∧
          ((decodeWord w = none ∧ f = .unknownOpcode w s.pc) ∨
            ∃ i, decodeWord w = some i ∧ faultCause i s.advance = some f)) := by
  cases hwait : s.wait with
  | some x => simp [stepEvent_of_wait hwait]
  | none =>
    rw [stepEvent_of_running hwait]
    cases hfetch : s.fetchWord s.pc.toNat with
    | none => simp [runInstruction_of_fetchWord_eq_none hfetch, eq_comm]
    | some w =>
      cases hdecode : decodeWord w with
      | none => simp [runInstruction_of_decodeWord_eq_none hfetch hdecode, hdecode, eq_comm]
      | some i => simp [runInstruction_of_decodeWord_eq_some hfetch hdecode, hdecode, exec_eq_fault_iff]

/-- No instruction raises `UnknownOpcode`: it is the decoder's (R131). -/
theorem faultCause_ne_unknownOpcode (i : Instr) (s : State) (w pc : Word) :
    faultCause i s ≠ some (.unknownOpcode w pc) := by
  cases i <;> simp [faultCause]

/-- The host still has the machine as it was after a faulted `STEP` (R135). -/
theorem deliver_step_of_fault {s : State} {f : Fault} (h : stepEvent s = .fault f) :
    deliver .step (.machine s) = .ok (.machine s, some f) := by
  have happly : applyEvent .step s = .fault f := h
  cases f with
  | programTooLarge len => exact absurd h (stepEvent_ne_programTooLarge s len)
  | _ => simp [deliver, happly]

/-- Settles O7: of the three stages only the decoding raises `UnknownOpcode`. -/
theorem unknownOpcodeExactlyForUnknownWords : Obligations.UnknownOpcodeExactlyForUnknownWords := by
  unfold Obligations.UnknownOpcodeExactlyForUnknownWords
  refine fun s w pc => ⟨⟨fun h => ?_, ?_⟩, deliver_step_of_fault⟩
  · obtain ⟨hwait, ⟨-, hf⟩ | ⟨w', hfetch, ⟨hdecode, hf⟩ | ⟨i, -, hcause⟩⟩⟩ := stepEvent_eq_fault_iff.1 h
    · cases hf
    · cases hf
      obtain ⟨hin, hw⟩ := State.fetchWord_eq_some.1 hfetch
      exact ⟨hwait, by omega, rfl, hw, hdecode⟩
    · exact absurd hcause (faultCause_ne_unknownOpcode i _ w pc)
  · rintro ⟨hwait, hin, rfl, hw, hdecode⟩
    have hfetch : s.fetchWord s.pc.toNat = some w := State.fetchWord_eq_some.2 ⟨by omega, hw⟩
    exact stepEvent_eq_fault_iff.2 ⟨hwait, .inr ⟨w, hfetch, .inl ⟨hdecode, rfl⟩⟩⟩

/-! ## An instruction completes or raises its fault (R130, R134) -/

/-- No instruction is refused: each answers a next state or raises a fault. -/
theorem exec_ne_refused (i : Instr) (s : State) (r : Refusal) : exec i s ≠ .refused r := by
  cases i
  case ret | call | drw | stBcd | stRegs | ldRegs | skp | sknp =>
    simp only [exec, execRet, execCall, execDrw, execStBcd, execStRegs, storeAtI, execLdRegs, execSkp, execSknp,
      skipIfKey]
    split <;> nofun
  -- The rest complete in every state.
  all_goals nofun

/-- Settles O50: a result that is neither a refusal nor a fault is a next state. -/
theorem faultsExactlyInTheListedCases : Obligations.FaultsExactlyInTheListedCases := by
  unfold Obligations.FaultsExactlyInTheListedCases
  refine fun i s => ⟨fun f => exec_eq_fault_iff.2, fun hnone => ?_⟩
  cases h : exec i s with
  | next t => exact ⟨t, rfl⟩
  | fault f => exact absurd (exec_eq_fault_iff.1 h) (by simp [hnone])
  | refused r => exact absurd h (exec_ne_refused i s r)

/-! ## A `RESET` that fails (R137, R150) -/

theorem imageWellFormed_iff {image : List Byte} : imageWellFormed image = true ↔ image.length ≤ 3584 :=
  decide_eq_true_iff

theorem loadImage_of_too_long {image : List Byte} (h : 3584 < image.length) (s : State) :
    loadImage image s = .fault (.programTooLarge image.length) :=
  loadImage_eq_fault.2 ⟨Bool.eq_false_iff.2 fun hwf => by have := imageWellFormed_iff.1 hwf; omega, rfl⟩

/-- A `RESET` that fails leaves no machine, whether there was one or not; the host's side is as it was
(notes/assumptions/19.md). -/
theorem deliver_reset_of_too_long {image : List Byte} (h : 3584 < image.length) (m : Holding) :
    deliver (.reset image) m = .ok (m.discard, some (.programTooLarge image.length)) := by
  cases m with
  | machine s => simp [deliver, applyEvent, loadImage_of_too_long h]
  | absent draws schedule => simp [deliver, loadImage_of_too_long h]

/-- With no machine, no event but `RESET` has a transition (U9). -/
theorem deliver_absent_of_not_reset {e : Event} (he : isReset e = false) (draws : Nat)
    (schedule : List Event) : deliver e (.absent draws schedule) = .error .noMachine := by
  cases e with
  | reset image => cases he
  | step | tick | keyDown k | keyUp k => rfl

/-- With no machine, a `RESET` that succeeds makes one that takes the host's side as it stands. -/
theorem deliver_absent_of_fits {image : List Byte} (h : image.length ≤ 3584) (draws : Nat)
    (schedule : List Event) : ∃ t, deliver (.reset image) (.absent draws schedule) = .ok (.machine t, none) ∧
      t.draws = draws ∧ t.schedule = schedule := by
  obtain ⟨t, hload, hhost⟩ : ∃ t, loadImage image { State.reset with draws, schedule } = .next t ∧
      t.draws = draws ∧ t.schedule = schedule :=
    ⟨_, loadImage_eq_next.2 ⟨imageWellFormed_iff.2 h, rfl⟩, rfl, rfl⟩
  exact ⟨t, by simp [deliver, hload], hhost⟩

/-- The image stands at 512 in the machine that a `RESET` makes (R150, R151). -/
theorem mem_read_of_loadImage {image : List Byte} {s t : State} (h : loadImage image s = .next t)
    {k : Nat} (hk : k < image.length) : t.mem.read (512 + k) = image[k] := by
  obtain ⟨hwf, rfl⟩ := loadImage_eq_next.1 h
  exact (Memory.read_writeBytes image [] 512 (512 + k) State.reset_mem_wf (image_fits hwf)).trans (by simp [hk])

/-- Settles O17, by the length of the image. -/
theorem programTooLargeExactlyOver3584 : Obligations.ProgramTooLargeExactlyOver3584 := by
  unfold Obligations.ProgramTooLargeExactlyOver3584
  refine fun s image => ⟨fun hfits => ?_, fun hlong => loadImage_of_too_long hlong s,
    fun hlong => deliver_reset_of_too_long hlong,
    fun draws schedule => ⟨fun e he => deliver_absent_of_not_reset he draws schedule,
      fun hfits => deliver_absent_of_fits hfits draws schedule⟩,
    stepEvent_ne_programTooLarge s⟩
  obtain ⟨t, hload, -⟩ := exists_loadImage_running hfits s
  exact ⟨t, hload, fun k hk => mem_read_of_loadImage hload hk⟩

/-! ## A faulting machine goes on faulting (R140) -/

/-- A state with other timers and key flags. -/
def State.withTimersKeys (s : State) (dt st : Byte) (keys : Vector Bool 16) : State :=
  { s with dt, st, keys }

/-- No fault's cause is in the timers or the key latch (R130). -/
theorem faultCause_withTimersKeys (i : Instr) (s : State) (dt st : Byte) (keys : Vector Bool 16) :
    faultCause i (s.withTimersKeys dt st keys) = faultCause i s := by
  cases i <;> rfl

/-- A `STEP` faults alike whatever the timers and the key latch hold. -/
theorem stepEvent_withTimersKeys_eq_fault {s : State} {f : Fault} (h : stepEvent s = .fault f)
    (dt st : Byte) (keys : Vector Bool 16) : stepEvent (s.withTimersKeys dt st keys) = .fault f := by
  obtain ⟨hwait, hstage⟩ := stepEvent_eq_fault_iff.1 h
  refine stepEvent_eq_fault_iff.2 ⟨hwait, hstage.imp id fun ⟨w, hfetch, hcause⟩ => ⟨w, hfetch, ?_⟩⟩
  exact hcause.imp id fun ⟨i, hdecode, hi⟩ =>
    ⟨i, hdecode, (faultCause_withTimersKeys i s.advance dt st keys).trans hi⟩

/-- An event other than `STEP` and `RESET` changes at most the timers and the key latch of a Running machine. -/
theorem applyEvent_of_running {e : Event} {s : State} (hwait : s.wait = none) (hreset : isReset e = false)
    (hstep : e ≠ .step) : ∃ dt st keys, applyEvent e s = .next (s.withTimersKeys dt st keys) := by
  cases e with
  | reset image => cases hreset
  | step => exact absurd rfl hstep
  | tick => exact ⟨_, _, s.keys, rfl⟩
  | keyDown k => exact ⟨s.dt, s.st, _, congrArg Host.Outcome.next (keyDownEvent_of_running hwait k)⟩
  | keyUp k => exact ⟨s.dt, s.st, _, rfl⟩

/-- After any event but `RESET` a faulting machine is one that faults in the same way. -/
theorem deliver_of_faulting {e : Event} {s : State} {f : Fault} (h : stepEvent s = .fault f)
    (he : isReset e = false) :
    ∃ u g, deliver e (.machine s) = .ok (.machine u, g) ∧ stepEvent u = .fault f := by
  by_cases hstep : e = .step
  · subst hstep
    exact ⟨s, some f, deliver_step_of_fault h, h⟩
  · obtain ⟨hwait, -⟩ := stepEvent_eq_fault_iff.1 h
    obtain ⟨dt, st, keys, happly⟩ := applyEvent_of_running hwait he hstep
    exact ⟨_, none, deliver_machine_eq_ok_none.2 ⟨_, happly, rfl⟩,
      stepEvent_withTimersKeys_eq_fault h dt st keys⟩

/-- Settles O13, by induction on the events. -/
theorem faultedMachineStaysFaulted : Obligations.FaultedMachineStaysFaulted := by
  unfold Obligations.FaultedMachineStaysFaulted
  intro es
  induction es with
  | nil => exact fun s f h _ => ⟨s, [], rfl, h⟩
  | cons e es ih =>
    intro s f h hes
    obtain ⟨he, hes⟩ := List.forall_mem_cons.1 hes
    obtain ⟨t, g, hdeliver, ht⟩ := deliver_of_faulting h he
    obtain ⟨u, fs, hrun, hu⟩ := ih t f ht hes
    exact ⟨u, g :: fs, runEvents_cons.2 ⟨_, g, fs, hdeliver, hrun, rfl⟩, hu⟩

end Sys2Proof.Machine
